-- ==== Sys2Proof/Word.lean ====
section
/-! DEFINITION. The scalar types of the core: the 15-bit Word, the 16-bit memory cell, the image's
byte and the register index (00_scope.md R6, R7, R8). -/

namespace Sys2Proof

/-- A Word, "the machine's native scalar": an unsigned integer in 0..32767, 15 significant bits
(00_scope.md R7). Registers and output entries are Words, so the range rule 10_state.md R23 holds
of them by type (log 20). -/
abbrev Word := BitVec 15

/-- The 16-bit value of one memory cell, 0..65535 (00_scope.md R8). Also a raw instruction word. -/
abbrev Cell := BitVec 16

/-- A byte of a program image; the core itself never addresses bytes (20_memory.md R50). -/
abbrev Byte := BitVec 8

/-- A register index 0..7 (00_scope.md R6, 10_state.md R21). -/
abbrev Reg := Fin 8

end Sys2Proof
end

