-- ==== Sys2Proof/Syntax.lean ====
section
/-! DEFINITION. The syntax of a decoded instruction: operands, the 22 instructions of
30_encoding.md R75, and the reasons a fault can name (60_exceptions.md R180). -/

namespace Sys2Proof

/-- A resolved operand: "tagged value, either Literal(Word) or RegisterRef(index 0..7)"
(00_scope.md glossary, 30_encoding.md R71). -/
inductive Operand where
  | lit (w : Word)
  | reg (r : Reg)
  deriving DecidableEq, Repr

/-- The instructions, one constructor per row of spec/opcode_table.json, in the table's order. A
Reg position holds a register index, since decoding refuses anything else there (30_encoding.md R74,
R76); a value position holds an operand. -/
inductive Instr where
  | halt
  | set (a : Reg) (b : Operand)
  | push (a : Operand)
  | pop (a : Reg)
  | equal (a : Reg) (b c : Operand)
  | greaterThan (a : Reg) (b c : Operand)
  | jump (a : Operand)
  | jumpTrue (a b : Operand)
  | jumpFalse (a b : Operand)
  | add (a : Reg) (b c : Operand)
  | multiply (a : Reg) (b c : Operand)
  | modulo (a : Reg) (b c : Operand)
  | and (a : Reg) (b c : Operand)
  | or (a : Reg) (b c : Operand)
  | not (a : Reg) (b : Operand)
  | readMemory (a : Reg) (b : Operand)
  | writeMemory (a b : Operand)
  | call (a : Operand)
  | ret
  | out (a : Operand)
  | inp (a : Reg)
  | noOp
  deriving DecidableEq, Repr

/-- The fault reasons, in the order of the table of 60_exceptions.md R180. -/
inductive FaultReason where
  /-- Decode: the opcode word is above 21 (R181). -/
  | unknownOpcode
  /-- Decode: an operand word is above 32775 (R182). -/
  | invalidOperand
  /-- Decode, ReadMemory, WriteMemory or the sequencer: an address at or above N (R183). -/
  | outOfBounds
  /-- Pop with an empty stack (R184). -/
  | stackUnderflow
  /-- Modulo with a zero divisor (R185). -/
  | divideByZero
  /-- Decode: a Literal in a Reg position (30_encoding.md R76, decision D5). -/
  | registerExpected
  /-- ReadMemory, Pop or In: a value above 32767 bound for a register (40_execution_cycle.md R99). -/
  | wordOutOfRange
  /-- In with the input exhausted (47_io.md R172, decision D8). -/
  | endOfInput
  /-- Push or Call on a full stack of finite depth (42_register_and_stack.md R120, decision D14). -/
  | stackOverflow
  deriving DecidableEq, Repr

/-- What `raise Fault(reason)` carries at the point where it is raised: the reason and the detail
value that the table of 60_exceptions.md R180 names for it, or none. -/
structure Raise where
  reason : FaultReason
  detail : Option Nat
  deriving DecidableEq, Repr

end Sys2Proof
end

