-- ==== Sys2Proof/Config.lean ====
section
/-! DEFINITION. What one launch of the hardware fixes (00_scope.md section 4), the values State.reset
takes for it, and the one value the spec leaves free. -/

namespace Sys2Proof

/-- The launch parameters: "parameters of a run. They are not state" (10_state.md R20). The image is
a parameter too; it becomes the initial memory (Machine/Loader.lean). -/
structure LaunchParams where
  /-- MEM_EXTENT, written N: how many cells memory has (00_scope.md R9). -/
  extent : Nat
  /-- STACK_DEPTH: none is the unbounded stack of this hardware, some D a finite realisation
  (00_scope.md R10, decision D14). -/
  stackDepth : Option Nat
  /-- INPUT: the character codes the host will supply, then end-of-stream (00_scope.md R11). A code is
  a Nat, since a host may supply one above 32767 (47_io.md R172; log 24). -/
  input : List Nat
  deriving DecidableEq, Repr

namespace Config

/-- The largest admissible extent (00_scope.md R9, 70_reset_and_hazards.md R214). -/
def maxExtent : Nat := 32768

/-- The parameters of State.reset: the fixed-size memory of the two the source names, the unbounded
stack, and no input. DESIGN CHOICE (log 2): the spec leaves N and INPUT open. -/
def resetParams : LaunchParams := { extent := maxExtent, stackDepth := none, input := [] }

/-- The free part of the exit code of a faulted run: the spec says it is nonzero and may differ by
reason, and gives no value (60_exceptions.md R203; log 18). Nothing can evaluate it. -/
opaque faultExit : FaultReason → Nat

end Config
end Sys2Proof
end

