-- ==== Sys2Proof/WellFormed.lean ====
section
/-! DEFINITION. Which word sequences are an instruction: the operand kinds of 30_encoding.md R75 and
the classification of the encoding space of R84, written as tables and independently of the decoder. -/

namespace Sys2Proof

/-- The two kinds of operand position (30_encoding.md R74). -/
inductive Kind where
  | reg
  | val
  deriving DecidableEq, Repr

/-- The operand kinds of each opcode id, the table of 30_encoding.md R75; none for an id that is no
opcode (R73). -/
def operandKinds : Nat → Option (List Kind)
  | 0 => some []
  | 1 => some [.reg, .val]
  | 2 => some [.val]
  | 3 => some [.reg]
  | 4 => some [.reg, .val, .val]
  | 5 => some [.reg, .val, .val]
  | 6 => some [.val]
  | 7 => some [.val, .val]
  | 8 => some [.val, .val]
  | 9 => some [.reg, .val, .val]
  | 10 => some [.reg, .val, .val]
  | 11 => some [.reg, .val, .val]
  | 12 => some [.reg, .val, .val]
  | 13 => some [.reg, .val, .val]
  | 14 => some [.reg, .val]
  | 15 => some [.reg, .val]
  | 16 => some [.val, .val]
  | 17 => some [.val]
  | 18 => some []
  | 19 => some [.val]
  | 20 => some [.reg]
  | 21 => some []
  | _ => none

/-- The operand words a position of each kind admits (30_encoding.md R84). -/
def Kind.admits : Kind → Cell → Bool
  | .val, raw => raw.toNat ≤ 32775
  | .reg, raw => 32768 ≤ raw.toNat && raw.toNat ≤ 32775

/-- Whether the operand words fit the kinds, one for one. -/
def operandsAdmitted : List Kind → List Cell → Bool
  | [], [] => true
  | k :: ks, w :: ws => k.admits w && operandsAdmitted ks ws
  | [], _ :: _ => false
  | _ :: _, [] => false

/-- Whether a word sequence is exactly one instruction: a known opcode word, as many operand words as
its arity, and every one admitted at its position (30_encoding.md R70, R84). -/
def wordsWellFormed : List Cell → Bool
  | [] => false
  | op :: ws =>
    match operandKinds op.toNat with
    | some ks => operandsAdmitted ks ws
    | none => false

end Sys2Proof
end

