-- ==== Sys2Proof/Decode.lean ====
section
/-! DEFINITION. The operand resolver and the decoder of 30_encoding.md (R71, R79), total on any words
and refusing by name, then the encoder, and the host's view of one opcode-table word. -/

namespace Sys2Proof

/-- `zext_16`: a Word as a 16-bit cell value, unchanged (00_scope.md R13). -/
def zext16 (w : Word) : Cell := BitVec.ofNat 16 w.toNat

/-- A natural number narrowed to a Word, that is reduced modulo 32768 (45_alu.md R156). -/
def narrow (n : Nat) : Word := BitVec.ofNat 15 n

/-- The operand resolver (30_encoding.md R71). -/
def resolve (raw : Cell) : Except Raise Operand :=
  if raw.toNat ≤ 32767 then
    .ok (.lit (narrow raw.toNat))
  else if raw.toNat ≤ 32775 then
    .ok (.reg (Fin.ofNat 8 (raw.toNat - 32768)))
  else
    .error { reason := .invalidOperand, detail := some raw.toNat }

/-- The kind check of a Reg position: a Literal there raises RegisterExpected with the raw word
(30_encoding.md R76, R79; decision D5, log 7). -/
def expectReg (raw : Cell) : Operand → Except Raise Reg
  | .reg r => .ok r
  | .lit _ => .error { reason := .registerExpected, detail := some raw.toNat }

/-- The value-position operand at an address: fetch, then resolve (30_encoding.md R79). -/
def valueAt (fetch : Nat → Except Raise Cell) (addr : Nat) : Except Raise Operand := do
  let raw ← fetch addr
  resolve raw

/-- The Reg-position operand at an address: fetch, resolve, check the kind, in that order
(30_encoding.md R79, R81; log 8). -/
def regAt (fetch : Nat → Except Raise Cell) (addr : Nat) : Except Raise Reg := do
  let raw ← fetch addr
  let op ← resolve raw
  expectReg raw op

/-- The opcode id of an instruction (30_encoding.md R75). -/
def Instr.opcode : Instr → Nat
  | .halt => 0
  | .set .. => 1
  | .push .. => 2
  | .pop .. => 3
  | .equal .. => 4
  | .greaterThan .. => 5
  | .jump .. => 6
  | .jumpTrue .. => 7
  | .jumpFalse .. => 8
  | .add .. => 9
  | .multiply .. => 10
  | .modulo .. => 11
  | .and .. => 12
  | .or .. => 13
  | .not .. => 14
  | .readMemory .. => 15
  | .writeMemory .. => 16
  | .call .. => 17
  | .ret => 18
  | .out .. => 19
  | .inp .. => 20
  | .noOp => 21

/-- The operands of an instruction in encoding order, a Reg position as the RegisterRef it was. -/
def Instr.operands : Instr → List Operand
  | .halt | .ret | .noOp => []
  | .push a | .jump a | .call a | .out a => [a]
  | .pop a | .inp a => [.reg a]
  | .set a b | .not a b | .readMemory a b => [.reg a, b]
  | .jumpTrue a b | .jumpFalse a b | .writeMemory a b => [a, b]
  | .equal a b c | .greaterThan a b c | .add a b c | .multiply a b c | .modulo a b c
  | .and a b c | .or a b c => [.reg a, b, c]

/-- How many operand words follow the opcode word (30_encoding.md R75). -/
def Instr.arity (i : Instr) : Nat := i.operands.length

/-- The instruction and its fallthrough address `addr + 1 + arity` (30_encoding.md R80). -/
def decoded (addr : Nat) (i : Instr) : Except Raise (Instr × Nat) := .ok (i, addr + 1 + i.arity)

/-- The decoder of 30_encoding.md R79 over any memory, given as the fetch of one word. Operands are
fetched and checked one at a time in ascending order, so the first fault met is the one reported
(R81). -/
def decode (fetch : Nat → Except Raise Cell) (addr : Nat) : Except Raise (Instr × Nat) := do
  let w0 ← fetch addr
  match w0.toNat with
  | 0 => decoded addr .halt
  | 1 => do
    let a ← regAt fetch (addr + 1)
    let b ← valueAt fetch (addr + 2)
    decoded addr (.set a b)
  | 2 => do
    let a ← valueAt fetch (addr + 1)
    decoded addr (.push a)
  | 3 => do
    let a ← regAt fetch (addr + 1)
    decoded addr (.pop a)
  | 4 => do
    let a ← regAt fetch (addr + 1)
    let b ← valueAt fetch (addr + 2)
    let c ← valueAt fetch (addr + 3)
    decoded addr (.equal a b c)
  | 5 => do
    let a ← regAt fetch (addr + 1)
    let b ← valueAt fetch (addr + 2)
    let c ← valueAt fetch (addr + 3)
    decoded addr (.greaterThan a b c)
  | 6 => do
    let a ← valueAt fetch (addr + 1)
    decoded addr (.jump a)
  | 7 => do
    let a ← valueAt fetch (addr + 1)
    let b ← valueAt fetch (addr + 2)
    decoded addr (.jumpTrue a b)
  | 8 => do
    let a ← valueAt fetch (addr + 1)
    let b ← valueAt fetch (addr + 2)
    decoded addr (.jumpFalse a b)
  | 9 => do
    let a ← regAt fetch (addr + 1)
    let b ← valueAt fetch (addr + 2)
    let c ← valueAt fetch (addr + 3)
    decoded addr (.add a b c)
  | 10 => do
    let a ← regAt fetch (addr + 1)
    let b ← valueAt fetch (addr + 2)
    let c ← valueAt fetch (addr + 3)
    decoded addr (.multiply a b c)
  | 11 => do
    let a ← regAt fetch (addr + 1)
    let b ← valueAt fetch (addr + 2)
    let c ← valueAt fetch (addr + 3)
    decoded addr (.modulo a b c)
  | 12 => do
    let a ← regAt fetch (addr + 1)
    let b ← valueAt fetch (addr + 2)
    let c ← valueAt fetch (addr + 3)
    decoded addr (.and a b c)
  | 13 => do
    let a ← regAt fetch (addr + 1)
    let b ← valueAt fetch (addr + 2)
    let c ← valueAt fetch (addr + 3)
    decoded addr (.or a b c)
  | 14 => do
    let a ← regAt fetch (addr + 1)
    let b ← valueAt fetch (addr + 2)
    decoded addr (.not a b)
  | 15 => do
    let a ← regAt fetch (addr + 1)
    let b ← valueAt fetch (addr + 2)
    decoded addr (.readMemory a b)
  | 16 => do
    let a ← valueAt fetch (addr + 1)
    let b ← valueAt fetch (addr + 2)
    decoded addr (.writeMemory a b)
  | 17 => do
    let a ← valueAt fetch (addr + 1)
    decoded addr (.call a)
  | 18 => decoded addr .ret
  | 19 => do
    let a ← valueAt fetch (addr + 1)
    decoded addr (.out a)
  | 20 => do
    let a ← regAt fetch (addr + 1)
    decoded addr (.inp a)
  | 21 => decoded addr .noOp
  | w => .error { reason := .unknownOpcode, detail := some w }

/-- Fetching from a finite list of words laid out from address 0; past its end is out of bounds. -/
def fetchList (ws : List Cell) (addr : Nat) : Except Raise Cell :=
  match ws[addr]? with
  | some w => .ok w
  | none => .error { reason := .outOfBounds, detail := some addr }

/-- The decoder on a list of words: the instruction its first words are, and its length in words. -/
def decodeWords (ws : List Cell) : Except Raise (Instr × Nat) := decode (fetchList ws) 0

/-! ## The encoder, from the same tables -/

/-- The raw word of an operand (30_encoding.md R71, R72): a literal is its value, register r is
32768 + r. -/
def encodeOperand : Operand → Cell
  | .lit w => zext16 w
  | .reg r => BitVec.ofNat 16 (32768 + r.val)

/-- The words of an instruction: the opcode word, then its operand words (30_encoding.md R70). -/
def encode (i : Instr) : List Cell :=
  BitVec.ofNat 16 i.opcode :: i.operands.map encodeOperand

/-! ## The opcode table's words -/

/-- The four words (the longest instruction) of a table word of `nbits` bits, bit 0 the least
significant bit of the first word; every bit at or above `nbits` is 0. -/
def tableWords (nbits w : Nat) : List Cell :=
  let v := w % 2 ^ nbits
  [BitVec.ofNat 16 v, BitVec.ofNat 16 (v / 2 ^ 16), BitVec.ofNat 16 (v / 2 ^ 32),
    BitVec.ofNat 16 (v / 2 ^ 48)]

/-- The instruction the decoder reads from a table word, none where it refuses (log 22: with operand
words of zeros a Reg position holds the Literal 0, which decoding refuses as R76 says). -/
def decodeTableWord (nbits w : Nat) : Option Instr :=
  match decodeWords (tableWords nbits w) with
  | .ok (i, _) => some i
  | .error _ => none

end Sys2Proof
end

