-- ==== Sys2Proof/Machine/State.lean ====
section
/-! DEFINITION. The architectural state of one core instance (10_state.md R20) as plain data, the
launch parameters beside it, the reasons a step can stop, and the state after reset. -/

namespace Sys2Proof.Machine

/-- The fault record (60_exceptions.md R187, decision D12): the reason, the address of the instruction
during which the fault was detected, the detail value, and, when decode completed, the decoded opcode
and operands. -/
structure FaultRecord where
  reason : FaultReason
  pc : Nat
  detail : Option Nat
  instr : Option Instr
  deriving DecidableEq, Repr

/-- The executor status (10_state.md R29). -/
inductive Status where
  | running
  | halted
  | faulted (record : FaultRecord)
  deriving DecidableEq, Repr

/-- Memory: the listed cells as (address, value) pairs, addresses strictly rising, none listed with
the value an unlisted address reads as (`Memory.wf`; log 3). -/
abbrev Memory := List (Nat × Cell)

/-- The state of one core instance: the tuple of 10_state.md R20, and the launch parameters, which no
step writes (log 1). -/
structure State where
  /-- The register file x[0..7] (10_state.md R21). -/
  x : Vector Word 8
  /-- The program counter, an "index into Memory" (10_state.md R26). -/
  pc : Nat
  /-- Running, Halted or Faulted (10_state.md R29). -/
  status : Status
  /-- The stack, its tail the top; entries are integers in 0..32768 (10_state.md R32, R33). -/
  stack : List Nat
  /-- The memory cells (10_state.md R35). -/
  mem : Memory
  /-- The output so far, one Word per Out executed (10_state.md R37). -/
  out : List Word
  /-- How many codes of INPUT In has consumed (10_state.md R38). -/
  inpos : Nat
  /-- N, STACK_DEPTH and INPUT, "parameters of a run" (10_state.md R20; log 1). -/
  launch : LaunchParams
  deriving DecidableEq, Repr

/-- Why `step` has no next state: "A step from Halted or Faulted does not exist"
(40_execution_cycle.md R95). The core's own faults are next states with status Faulted (log 6). -/
inductive Fault where
  /-- Raised by `step` alone, in status Halted. Safe: the spec gives this state no step. -/
  | alreadyHalted
  /-- Raised by `step` alone, in status Faulted, with the record that ended the run. Safe: the spec
  gives this state no step. -/
  | alreadyFaulted (record : FaultRecord)
  deriving DecidableEq, Repr

/-- Why an instruction has no meaning in the model. -/
inductive Refusal where
  /-- Raised by an arm of `exec` that has no meaning yet; no arm raises it. Safe. -/
  | notModelled (mnemonic : String)
  deriving DecidableEq, Repr

/-- What a step or a meaning answers. -/
abbrev Result := Host.Outcome State Fault Refusal

/-- A core constructed for a run, before any step (70_reset_and_hazards.md R210). -/
def State.fresh (launch : LaunchParams) (mem : Memory) : State where
  x := Vector.replicate 8 0
  pc := 0
  status := .running
  stack := []
  mem := mem
  out := []
  inpos := 0
  launch := launch

/-- The machine right after reset: the reset values of 70_reset_and_hazards.md R210, with no image
loaded and the parameters of log 2. -/
def State.reset : State := State.fresh Config.resetParams []

end Sys2Proof.Machine
end

