-- ==== Sys2Proof/Machine/Ops.lean ====
section
/-! DEFINITION. The named operations every meaning is written over: registers, memory, stack, I/O
ports, raising a fault, and the program-counter sequencer (00_scope.md R14, 20_memory.md,
40_execution_cycle.md, 42_register_and_stack.md R120, 47_io.md R173, 60_exceptions.md R186). -/

namespace Sys2Proof.Machine

/-! ## Registers -/

/-- Read register r (10_state.md R21). -/
def State.reg (s : State) (r : Reg) : Word := s.x[r]

/-- The write-register operation, the one way a register changes (10_state.md R22,
40_execution_cycle.md R99). -/
def State.writeReg (s : State) (r : Reg) (v : Word) : State := { s with x := s.x.set r v }

/-- A value bound for a register: above 32767 it raises WordOutOfRange with the value as detail
(40_execution_cycle.md R99; decision D7, log 9). -/
def asWord (v : Nat) : Except Raise Word :=
  if v ≤ 32767 then .ok (narrow v) else .error { reason := .wordOutOfRange, detail := some v }

/-! ## Memory -/

/-- What an unlisted address reads as: cells above the image start at 0 (10_state.md R35, decision D2;
log 4). -/
abbrev Memory.unlisted : Cell := 0

/-- The cell at an address. -/
def Memory.read : Memory → Nat → Cell
  | [], _ => Memory.unlisted
  | (b, w) :: m, a => if a = b then w else Memory.read m a

/-- The memory with one cell set, in canonical form: a cell set to what an unlisted address reads as
is not listed. -/
def Memory.write : Memory → Nat → Cell → Memory
  | [], a, v => if v = Memory.unlisted then [] else [(a, v)]
  | (b, w) :: m, a, v =>
    if a < b then
      if v = Memory.unlisted then (b, w) :: m else (a, v) :: (b, w) :: m
    else if a = b then
      if v = Memory.unlisted then m else (a, v) :: m
    else
      (b, w) :: Memory.write m a v

/-- The canonical form: addresses strictly rising, and no cell listed with the value an unlisted
address reads as. -/
def Memory.wf : Memory → Bool
  | [] => true
  | (a, v) :: m => v != Memory.unlisted && m.all (fun c => a < c.1) && Memory.wf m

/-- `MemRead(addr, 1)` (20_memory.md R48). -/
def State.memRead (s : State) (addr : Nat) : Except Raise Cell :=
  if s.launch.extent ≤ addr then .error { reason := .outOfBounds, detail := some addr }
  else .ok (s.mem.read addr)

/-- `MemWrite(addr, 1, v)` (20_memory.md R49). -/
def State.memWrite (s : State) (addr : Nat) (v : Word) : Except Raise State :=
  if s.launch.extent ≤ addr then .error { reason := .outOfBounds, detail := some addr }
  else .ok { s with mem := s.mem.write addr (zext16 v) }

/-- Words placed from outside the machine at consecutive addresses, as the loader places an image; an
address at or above N is no cell and takes nothing. -/
def State.place (s : State) : Nat → List Cell → State
  | _, [] => s
  | addr, w :: ws =>
    State.place (if addr < s.launch.extent then { s with mem := s.mem.write addr w } else s)
      (addr + 1) ws

/-! ## Stack -/

/-- Whether one more entry would exceed a finite STACK_DEPTH; never on the unbounded stack
(42_register_and_stack.md R120, decision D14; log 14). -/
def State.stackFull (s : State) : Bool :=
  match s.launch.stackDepth with
  | none => false
  | some d => d ≤ s.stack.length

/-- `StackPush(v)` (42_register_and_stack.md R120). -/
def State.stackPush (s : State) (v : Nat) : Except Raise State :=
  if s.stackFull then .error { reason := .stackOverflow, detail := some v }
  else .ok { s with stack := s.stack ++ [v] }

/-- `StackPop()`: the tail entry and the state without it (42_register_and_stack.md R120). -/
def State.stackPop (s : State) : Except Raise (Nat × State) :=
  match s.stack.getLast? with
  | none => .error { reason := .stackUnderflow, detail := none }
  | some v => .ok (v, { s with stack := s.stack.dropLast })

/-! ## I/O ports -/

/-- `OutPort(v)` (00_scope.md R14, 47_io.md R170). -/
def State.outPort (s : State) (v : Word) : State := { s with out := s.out ++ [v] }

/-- `InPort()`: the next code of INPUT, or none for EOS (47_io.md R173; log 10). -/
def State.inPort (s : State) : Option Nat := s.launch.input[s.inpos]?

/-- One code of INPUT consumed (47_io.md R172). -/
def State.consumeInput (s : State) : State := { s with inpos := s.inpos + 1 }

/-! ## Taking a fault -/

/-- `raise Fault(reason)`: the status becomes Faulted(reason, pc, detail) and nothing else changes
(60_exceptions.md R186, R187, R188). `instr` is the decoded instruction when decode completed. There
is no return from a fault (R192). -/
def State.raise (s : State) (r : Raise) (instr : Option Instr) : State :=
  { s with
    status := .faulted { reason := r.reason, pc := s.pc, detail := r.detail, instr := instr } }

/-! ## The sequencer and the end of a step -/

/-- The fallthrough address of an instruction standing at pc (30_encoding.md R80). -/
def State.fall (s : State) (i : Instr) : Nat := s.pc + 1 + i.arity

/-- `sequence(next)` (40_execution_cycle.md R101): the state is the one after the effect, which is kept
when the next PC is out of bounds (decision D11, log 11). -/
def State.sequence (s : State) (i : Instr) (next : Nat) : State :=
  if s.launch.extent ≤ next then
    s.raise { reason := .outOfBounds, detail := some next } (some i)
  else { s with pc := next }

/-- What the effect phase of a step leaves when it does not fault (40_execution_cycle.md R96, R100). -/
inductive Effect where
  /-- The state after the effect, and the next PC for the sequencer. -/
  | goes (s : State) (next : Nat)
  /-- The status becomes Halted and the sequencer does nothing (R102). -/
  | halts (s : State)
  deriving DecidableEq, Repr

/-- The end of a step whose effect began in `s`: a fault raised in the effect leaves everything but the
status as it was in `s` (60_exceptions.md R188), a halt keeps the pc (40_execution_cycle.md R102), and
otherwise the sequencer runs (R96, R101). -/
def State.complete (s : State) (i : Instr) : Except Raise Effect → Result
  | .error r => .next (s.raise r (some i))
  | .ok (.halts t) => .next { t with status := .halted }
  | .ok (.goes t next) => .next (t.sequence i next)

/-- The decode phase: the instruction at pc and its fallthrough address, read from live memory
(30_encoding.md R78, 20_memory.md R53). -/
def State.fetch (s : State) : Except Raise (Instr × Nat) := decode s.memRead s.pc

end Sys2Proof.Machine
end

