-- ==== Sys2Proof/Machine/Operands.lean ====
section
/-! DEFINITION. The operand value function (40_execution_cycle.md R97). There is one addressing mode,
absolute: an address operand is its value (46_memory_access.md R167, 30_encoding.md R77). -/

namespace Sys2Proof.Machine

/-- `val(op)`: a Literal yields itself, a RegisterRef the register's current value
(40_execution_cycle.md R97). -/
def State.val (s : State) : Operand → Word
  | .lit w => w
  | .reg r => s.reg r

/-- The address a value-position operand names (46_memory_access.md R167). -/
def State.address (s : State) (op : Operand) : Nat := (s.val op).toNat

end Sys2Proof.Machine
end

