-- ==== Sys2Proof/Machine/Alu.lean ====
section
/-! DEFINITION. The integer ALU: Add, Multiply, Modulo, And, Or and Not (45_alu.md). Each result is
computed exactly on unsigned integers and then reduced modulo 32768 (R156). -/

namespace Sys2Proof.Machine

/-- (b + c) mod 32768 (45_alu.md R150). -/
def aluAdd (b c : Word) : Word := narrow (b.toNat + c.toNat)

/-- (b * c) mod 32768 (45_alu.md R151). -/
def aluMultiply (b c : Word) : Word := narrow (b.toNat * c.toNat)

/-- The unsigned remainder; a zero divisor raises DivideByZero, with no detail, whatever the dividend
(45_alu.md R152). -/
def aluModulo (b c : Word) : Except Raise Word :=
  if c.toNat = 0 then .error { reason := .divideByZero, detail := none }
  else .ok (narrow (b.toNat % c.toNat))

/-- Bitwise AND on bits 14..0 (45_alu.md R153). -/
def aluAnd (b c : Word) : Word := b &&& c

/-- Bitwise OR on bits 14..0 (45_alu.md R154). -/
def aluOr (b c : Word) : Word := b ||| c

/-- 32767 - b, the 15-bit complement (45_alu.md R155). -/
def aluNot (b : Word) : Word := narrow (32767 - b.toNat)

/-- Add (45_alu.md R150). -/
def execAdd (a : Reg) (b c : Operand) (s : State) : Result :=
  s.complete (.add a b c)
    (.ok (.goes (s.writeReg a (aluAdd (s.val b) (s.val c))) (s.fall (.add a b c))))

/-- Multiply (45_alu.md R151). -/
def execMultiply (a : Reg) (b c : Operand) (s : State) : Result :=
  s.complete (.multiply a b c)
    (.ok (.goes (s.writeReg a (aluMultiply (s.val b) (s.val c))) (s.fall (.multiply a b c))))

/-- Modulo (45_alu.md R152). -/
def execModulo (a : Reg) (b c : Operand) (s : State) : Result :=
  s.complete (.modulo a b c) do
    let v ← aluModulo (s.val b) (s.val c)
    return .goes (s.writeReg a v) (s.fall (.modulo a b c))

/-- And (45_alu.md R153). -/
def execAnd (a : Reg) (b c : Operand) (s : State) : Result :=
  s.complete (.and a b c)
    (.ok (.goes (s.writeReg a (aluAnd (s.val b) (s.val c))) (s.fall (.and a b c))))

/-- Or (45_alu.md R154). -/
def execOr (a : Reg) (b c : Operand) (s : State) : Result :=
  s.complete (.or a b c)
    (.ok (.goes (s.writeReg a (aluOr (s.val b) (s.val c))) (s.fall (.or a b c))))

/-- Not (45_alu.md R155). -/
def execNot (a : Reg) (b : Operand) (s : State) : Result :=
  s.complete (.not a b) (.ok (.goes (s.writeReg a (aluNot (s.val b))) (s.fall (.not a b))))

end Sys2Proof.Machine
end

