-- ==== Sys2Proof/Machine/Flags.lean ====
section
/-! DEFINITION. The hardware has no flags or condition codes (10_state.md R30). What stands in their
place: the comparator results written to a register (43_compare.md) and the test of a value for zero
that the conditional jumps make (44_branch.md R138). -/

namespace Sys2Proof.Machine

/-- A truth value as the Word 1 or 0 (43_compare.md R130, R131). -/
def truthWord (b : Bool) : Word := if b then narrow 1 else narrow 0

/-- The comparator of Equal (43_compare.md R130). -/
def isEqual (b c : Word) : Bool := b.toNat = c.toNat

/-- The comparator of GreaterThan: unsigned and strict (43_compare.md R131). -/
def isGreater (b c : Word) : Bool := b.toNat > c.toNat

/-- The test of the conditional jumps: any non-zero Word counts as true (44_branch.md R136, R138). -/
def nonZero (a : Word) : Bool := a.toNat ≠ 0

end Sys2Proof.Machine
end

