-- ==== Sys2Proof/Machine/Branch.lean ====
section
/-! DEFINITION. Control transfer: Jump, JumpTrue, JumpFalse, Call and Return (44_branch.md). A target is
an absolute word address; the sequencer checks it (R135, R139). -/

namespace Sys2Proof.Machine

/-- Jump: next <- val(a) (44_branch.md R135). -/
def execJump (a : Operand) (s : State) : Result :=
  s.complete (.jump a) (.ok (.goes s (s.address a)))

/-- JumpTrue: if val(a) != 0, next <- val(b), else fall (44_branch.md R136). -/
def execJumpTrue (a b : Operand) (s : State) : Result :=
  s.complete (.jumpTrue a b)
    (.ok (.goes s (if nonZero (s.val a) then s.address b else s.fall (.jumpTrue a b))))

/-- JumpFalse: if val(a) == 0, next <- val(b), else fall (44_branch.md R137). -/
def execJumpFalse (a b : Operand) (s : State) : Result :=
  s.complete (.jumpFalse a b)
    (.ok (.goes s (if nonZero (s.val a) then s.fall (.jumpFalse a b) else s.address b)))

/-- Call: StackPush(fall), then next <- val(a) (44_branch.md R141). -/
def execCall (a : Operand) (s : State) : Result :=
  s.complete (.call a) do
    let t ← s.stackPush (s.fall (.call a))
    return .goes t (s.address a)

/-- Return: an empty stack halts; otherwise next <- StackPop() (44_branch.md R143). -/
def execRet (s : State) : Result :=
  s.complete .ret <|
    if s.stack.isEmpty then
      .ok (.halts s)
    else do
      let (v, t) ← s.stackPop
      return .goes t v

end Sys2Proof.Machine
end

