-- ==== Sys2Proof/Machine/Compare.lean ====
section
/-! DEFINITION. Comparisons: Equal and GreaterThan (43_compare.md). -/

namespace Sys2Proof.Machine

/-- Equal: x[a] <- (val(b) == val(c)) ? 1 : 0 (43_compare.md R130). -/
def execEqual (a : Reg) (b c : Operand) (s : State) : Result :=
  s.complete (.equal a b c)
    (.ok (.goes (s.writeReg a (truthWord (isEqual (s.val b) (s.val c)))) (s.fall (.equal a b c))))

/-- GreaterThan: x[a] <- (val(b) > val(c)) ? 1 : 0, unsigned (43_compare.md R131). -/
def execGreaterThan (a : Reg) (b c : Operand) (s : State) : Result :=
  s.complete (.greaterThan a b c)
    (.ok (.goes (s.writeReg a (truthWord (isGreater (s.val b) (s.val c))))
      (s.fall (.greaterThan a b c))))

end Sys2Proof.Machine
end

