-- ==== Sys2Proof/Machine/Control.lean ====
section
/-! DEFINITION. Machine control: Halt and NoOp (41_machine_control.md). -/

namespace Sys2Proof.Machine

/-- Halt: "status <- Halted"; no sequencer check (41_machine_control.md R115). -/
def execHalt (s : State) : Result :=
  s.complete .halt (.ok (.halts s))

/-- NoOp: fallthrough only (41_machine_control.md R117). -/
def execNoOp (s : State) : Result :=
  s.complete .noOp (.ok (.goes s (s.fall .noOp)))

end Sys2Proof.Machine
end

