-- ==== Sys2Proof/Machine/InOut.lean ====
section
/-! DEFINITION. The I/O ports: Out and In (47_io.md). -/

namespace Sys2Proof.Machine

/-- Out: OutPort(val(a)) (47_io.md R170). -/
def execOut (a : Operand) (s : State) : Result :=
  s.complete (.out a) (.ok (.goes (s.outPort (s.val a)) (s.fall (.out a))))

/-- In: EndOfInput, then WordOutOfRange, then one code consumed and written to x[a]
(47_io.md R172). -/
def execInp (a : Reg) (s : State) : Result :=
  s.complete (.inp a) <|
    match s.inPort with
    | none => .error { reason := .endOfInput, detail := none }
    | some code => do
      let w ← asWord code
      return .goes (s.consumeInput.writeReg a w) (s.fall (.inp a))

end Sys2Proof.Machine
end

