-- ==== Sys2Proof/Machine/MemoryAccess.lean ====
section
/-! DEFINITION. Memory access: ReadMemory and WriteMemory (46_memory_access.md). -/

namespace Sys2Proof.Machine

/-- ReadMemory: OutOfBounds, then WordOutOfRange, then x[a] <- mem[val(b)]
(46_memory_access.md R165). -/
def execReadMemory (a : Reg) (b : Operand) (s : State) : Result :=
  s.complete (.readMemory a b) do
    let cell ← s.memRead (s.address b)
    let w ← asWord cell.toNat
    return .goes (s.writeReg a w) (s.fall (.readMemory a b))

/-- WriteMemory: mem[val(a)] <- val(b), the address operand first (46_memory_access.md R166, R169). -/
def execWriteMemory (a b : Operand) (s : State) : Result :=
  s.complete (.writeMemory a b) do
    let t ← s.memWrite (s.address a) (s.val b)
    return .goes t (s.fall (.writeMemory a b))

end Sys2Proof.Machine
end

