-- ==== Sys2Proof/Machine/RegStack.lean ====
section
/-! DEFINITION. Register and stack instructions: Set, Push and Pop (42_register_and_stack.md). -/

namespace Sys2Proof.Machine

/-- Set: x[a] <- val(b) (42_register_and_stack.md R121). -/
def execSet (a : Reg) (b : Operand) (s : State) : Result :=
  s.complete (.set a b) (.ok (.goes (s.writeReg a (s.val b)) (s.fall (.set a b))))

/-- Push: StackPush(val(a)) (42_register_and_stack.md R123). -/
def execPush (a : Operand) (s : State) : Result :=
  s.complete (.push a) do
    let t ← s.stackPush (s.val a).toNat
    return .goes t (s.fall (.push a))

/-- Pop: StackUnderflow, then WordOutOfRange, then x[a] <- StackPop()
(42_register_and_stack.md R125). -/
def execPop (a : Reg) (s : State) : Result :=
  s.complete (.pop a) do
    let (v, t) ← s.stackPop
    let w ← asWord v
    return .goes (t.writeReg a w) (s.fall (.pop a))

end Sys2Proof.Machine
end

