-- ==== Sys2Proof/Machine/Dispatch.lean ====
section
/-! DEFINITION. The dispatch of a decoded instruction to its meaning: the effect and sequencer phases
of one step (40_execution_cycle.md R96). -/

namespace Sys2Proof.Machine

def exec (i : Instr) (s : State) : Host.Outcome State Fault Refusal :=
  match i with
  | .halt => Sys2Proof.Machine.execHalt s
  | .set a b => Sys2Proof.Machine.execSet a b s
  | .push a => Sys2Proof.Machine.execPush a s
  | .pop a => Sys2Proof.Machine.execPop a s
  | .equal a b c => Sys2Proof.Machine.execEqual a b c s
  | .greaterThan a b c => Sys2Proof.Machine.execGreaterThan a b c s
  | .jump a => Sys2Proof.Machine.execJump a s
  | .jumpTrue a b => Sys2Proof.Machine.execJumpTrue a b s
  | .jumpFalse a b => Sys2Proof.Machine.execJumpFalse a b s
  | .add a b c => Sys2Proof.Machine.execAdd a b c s
  | .multiply a b c => Sys2Proof.Machine.execMultiply a b c s
  | .modulo a b c => Sys2Proof.Machine.execModulo a b c s
  | .and a b c => Sys2Proof.Machine.execAnd a b c s
  | .or a b c => Sys2Proof.Machine.execOr a b c s
  | .not a b => Sys2Proof.Machine.execNot a b s
  | .readMemory a b => Sys2Proof.Machine.execReadMemory a b s
  | .writeMemory a b => Sys2Proof.Machine.execWriteMemory a b s
  | .call a => Sys2Proof.Machine.execCall a s
  | .ret => Sys2Proof.Machine.execRet s
  | .out a => Sys2Proof.Machine.execOut a s
  | .inp a => Sys2Proof.Machine.execInp a s
  | .noOp => Sys2Proof.Machine.execNoOp s

end Sys2Proof.Machine
end

