-- ==== Sys2Proof/Machine/Step.lean ====
section
/-! DEFINITION. One step of the core (40_execution_cycle.md R95, R96), and the state in which the next
step fetches a given instruction. -/

namespace Sys2Proof.Machine

/-- One step: in status Running, decode at pc, then execute; a decode fault is taken before anything
else happens (30_encoding.md R81). From Halted or Faulted no step exists (R95; log 6). -/
def step (s : State) : Host.Outcome State Fault Refusal :=
  match s.status with
  | .running =>
    match s.fetch with
    | .ok (i, _) => exec i s
    | .error r => .next (s.raise r none)
  | .halted => .fault .alreadyHalted
  | .faulted record => .fault (.alreadyFaulted record)

/-- The state with the instruction of a table word stored at pc, and Running, so that the next step
fetches and runs exactly it (log 21). -/
def State.withFetchWord (s : State) (nbits w : Nat) : State :=
  { s with status := .running }.place s.pc (tableWords nbits w)

end Sys2Proof.Machine
end

