-- ==== Sys2Proof/Machine/Loader.lean ====
section
/-! DEFINITION. Boot: the loader's contract and the launch of a core (70_reset_and_hazards.md section 2,
60_exceptions.md R200). Pure functions outside the step; nothing here runs an instruction. -/

namespace Sys2Proof.Machine

/-- The loader's own failure, not a core fault: no core is started (60_exceptions.md R189). -/
inductive LoadError where
  | oddByteCount
  deriving DecidableEq, Repr

/-- A launch the spec says nothing about: it requires L <= N <= 32768 (70_reset_and_hazards.md R214,
decision D3; log 23). -/
inductive LaunchRefusal where
  | extentTooLarge
  | imageTooLong
  deriving DecidableEq, Repr

/-- The little-endian word of two image bytes (20_memory.md R50). -/
def cellOfBytes (lo hi : Byte) : Cell := BitVec.ofNat 16 (lo.toNat + 256 * hi.toNat)

/-- `load`: the bytes of an image as its words (70_reset_and_hazards.md R213). -/
def loadImage : List Byte → Except LoadError (List Cell)
  | [] => .ok []
  | [_] => .error .oddByteCount
  | lo :: hi :: rest =>
    match loadImage rest with
    | .ok image => .ok (cellOfBytes lo hi :: image)
    | .error e => .error e

/-- The memory that holds an image from address `base` on, in canonical form. -/
def imageMemory : Nat → List Cell → Memory
  | _, [] => []
  | base, w :: ws =>
    if w = Memory.unlisted then imageMemory (base + 1) ws else (base, w) :: imageMemory (base + 1) ws

/-- Launch: a core in the reset state with the image at address 0 (70_reset_and_hazards.md R210, R214,
R215). -/
def State.launched (params : LaunchParams) (image : List Cell) : Except LaunchRefusal State :=
  if Config.maxExtent < params.extent then .error .extentTooLarge
  else if params.extent < image.length then .error .imageTooLong
  else .ok (State.fresh params (imageMemory 0 image))

end Sys2Proof.Machine
end

