-- ==== Sys2Proof/Machine/Observe.lean ====
section
/-! DEFINITION. What the host may observe of a run without changing it: the optional trace hook
(60_exceptions.md R198) and the exit code (R203). -/

namespace Sys2Proof.Machine

/-- The record the trace hook receives (60_exceptions.md R198, decision D18). -/
structure TraceRecord where
  pc : Nat
  opcode : Nat
  operands : List Operand
  nextPc : Nat
  deriving DecidableEq, Repr

/-- Whether the status is Faulted. -/
def Status.isFaulted : Status → Bool
  | .faulted _ => true
  | .running => false
  | .halted => false

/-- The trace record of the step from `s`, if that step completes: it decodes and does not end in
Faulted. For a halting step the resulting PC is the PC it keeps (log 17). -/
def traceStep (s : State) : Option TraceRecord :=
  match s.fetch, step s with
  | .ok (i, _), .next t =>
    if t.status.isFaulted then none
    else some { pc := s.pc, opcode := i.opcode, operands := i.operands, nextPc := t.pc }
  | _, _ => none

/-- The exit code a run's final status is reported with: 0 on Halted, nonzero on Faulted, none while
Running (60_exceptions.md R203; log 18). -/
def exitCode : Status → Option Nat
  | .running => none
  | .halted => some 0
  | .faulted record => some (Config.faultExit record.reason + 1)

end Sys2Proof.Machine
end

