-- ==== Sys2Proof/Safety.lean ====
section
/-! DEFINITION. The terms claims are stated in: the invariant of the reachable states, the fault
record that 60_exceptions.md R180 allows, a clean step, and what an instruction keeps (its frame). -/

namespace Sys2Proof.Machine

/-- The invariant every step keeps. Registers and output entries are Words by type, so 10_state.md R23
needs no clause. -/
structure State.Inv (s : State) : Prop where
  /-- N is admissible (00_scope.md R9). -/
  extent_le : s.launch.extent ≤ Config.maxExtent
  /-- The pc is an index into memory; with N = 0 it is 0 (10_state.md R26). -/
  pc_inside : s.pc < s.launch.extent ∨ (s.launch.extent = 0 ∧ s.pc = 0)
  /-- Memory is in canonical form (log 3). -/
  mem_wf : s.mem.wf = true
  /-- Memory lists no address outside the extent: it never grows (10_state.md R36). -/
  mem_inside : ∀ c ∈ s.mem, c.1 < s.launch.extent
  /-- A stack entry is a Word, or 32768 and then N = 32768 (10_state.md R33). -/
  stack_entries : ∀ v ∈ s.stack, v ≤ 32767 ∨ (v = 32768 ∧ s.launch.extent = 32768)
  /-- A finite stack is never over its depth (00_scope.md R10). -/
  stack_depth : ∀ d, s.launch.stackDepth = some d → s.stack.length ≤ d
  /-- No more of INPUT is consumed than there is (47_io.md R173). -/
  inpos_le : s.inpos ≤ s.launch.input.length
  /-- A fault record names the address the pc keeps (60_exceptions.md R187, R188). -/
  fault_pc : ∀ r, s.status = .faulted r → r.pc = s.pc

/-- The rows of the table of 60_exceptions.md R180 as a condition on a fault record taken with extent
`n`: the detail each reason records, the words or values that cause it, and which instructions raise
it. A decode fault carries no instruction (R187). -/
def FaultRecord.fitsTable (n : Nat) (r : FaultRecord) : Prop :=
  match r.reason with
  | .unknownOpcode => (∃ w, r.detail = some w ∧ 21 < w) ∧ r.instr = none
  | .invalidOperand => (∃ w, r.detail = some w ∧ 32775 < w) ∧ r.instr = none
  | .outOfBounds => ∃ addr, r.detail = some addr ∧ n ≤ addr
  | .stackUnderflow => r.detail = none ∧ ∃ a, r.instr = some (.pop a)
  | .divideByZero => r.detail = none ∧ ∃ a b c, r.instr = some (.modulo a b c)
  | .registerExpected => (∃ w, r.detail = some w ∧ w ≤ 32767) ∧ r.instr = none
  | .wordOutOfRange => (∃ v, r.detail = some v ∧ 32767 < v) ∧
      ((∃ a b, r.instr = some (.readMemory a b)) ∨ (∃ a, r.instr = some (.pop a)) ∨
        ∃ a, r.instr = some (.inp a))
  | .endOfInput => r.detail = none ∧ ∃ a, r.instr = some (.inp a)
  | .stackOverflow => (∃ v, r.detail = some v) ∧
      ((∃ a, r.instr = some (.push a)) ∨ ∃ a, r.instr = some (.call a))

/-- A step that does not end in Faulted. -/
def CleanStep (s t : State) : Prop := step s = .next t ∧ t.status.isFaulted = false

/-- The same state launched with another memory extent. -/
def State.withExtent (s : State) (n : Nat) : State :=
  { s with launch := { s.launch with extent := n } }

/-- The same state launched with the unbounded stack. -/
def State.withUnboundedStack (s : State) : State :=
  { s with launch := { s.launch with stackDepth := none } }

/-! ## Frames: what is the same after as before -/

/-- Every register but `a` reads as before. -/
def KeepsRegsBut (a : Reg) (s t : State) : Prop := ∀ r, r ≠ a → t.reg r = s.reg r

/-- Every register reads as before. -/
def KeepsRegs (s t : State) : Prop := ∀ r, t.reg r = s.reg r

/-- Every address reads as before. -/
def KeepsMem (s t : State) : Prop := ∀ addr, t.memRead addr = s.memRead addr

/-- The output, the input position and the launch parameters are as before. -/
def KeepsIo (s t : State) : Prop := t.out = s.out ∧ t.inpos = s.inpos ∧ t.launch = s.launch

/-- All but the register `a` and the pc is as before. -/
def RegisterFrame (a : Reg) (s t : State) : Prop :=
  KeepsRegsBut a s t ∧ t.stack = s.stack ∧ KeepsMem s t ∧ KeepsIo s t ∧ t.status = s.status

/-- All but the stack and the pc is as before. -/
def StackFrame (s t : State) : Prop :=
  KeepsRegs s t ∧ KeepsMem s t ∧ KeepsIo s t ∧ t.status = s.status

/-- All but the pc is as before. -/
def ControlFrame (s t : State) : Prop := StackFrame s t ∧ t.stack = s.stack

end Sys2Proof.Machine
end

