-- ==== Sys2Proof/Certificates/Slice0/Obligations.lean ====
section
/-! DEFINITION. The statements about the synacorpyse core, from the numbered rules of spec/. A
docstring names the rule or section a statement comes from; where a clause rests on one of the spec's
own decisions D<n> it says so and names the log entry. -/

open Sys2Proof Sys2Proof.Machine

/-! ## Encoding and decoding -/

/-- Decoding an encoded instruction, wherever it stands and whatever follows it, gives it back with
its fallthrough address (30_encoding.md section 3). -/
def Obligations.DecodeOfEncodeIsTheInstruction : Prop :=
  ∀ (i : Instr) (fetch : Nat → Except Raise Cell) (addr : Nat),
    (∀ k w, (encode i)[k]? = some w → fetch (addr + k) = .ok w) →
    decode fetch addr = .ok (i, addr + 1 + i.arity)

/-- What decodes is its own encoding: the words consumed are exactly the encoding of the instruction
decoded, so no two word sequences stand for one instruction (30_encoding.md sections 1 and 4). -/
def Obligations.EncodeOfDecodedWordsIsThoseWords : Prop :=
  ∀ (ws : List Cell) (i : Instr) (n : Nat), decodeWords ws = .ok (i, n) →
    n = 1 + i.arity ∧ n ≤ ws.length ∧ encode i = ws.take n

/-- The decoder accepts a word sequence as one whole instruction exactly when the tables of
WellFormed.lean admit it: a known opcode and every operand word admitted at its position
(30_encoding.md section 4; the Reg position rests on decision D5, log 7). -/
def Obligations.DecodeAcceptsExactlyWellFormedWords : Prop :=
  ∀ ws : List Cell, wordsWellFormed ws = true ↔ ∃ i, decodeWords ws = .ok (i, ws.length)

/-- The operand resolver on every raw word (30_encoding.md R71). -/
def Obligations.ResolverClassifiesRawWords : Prop :=
  ∀ raw : Cell,
    (raw.toNat ≤ 32767 → ∃ w : Word, resolve raw = .ok (.lit w) ∧ w.toNat = raw.toNat) ∧
    (32768 ≤ raw.toNat → raw.toNat ≤ 32775 →
      ∃ r : Reg, resolve raw = .ok (.reg r) ∧ r.val = raw.toNat - 32768) ∧
    (32775 < raw.toNat →
      resolve raw = .error { reason := .invalidOperand, detail := some raw.toNat })

/-- Words written out from the spec's encodings decode to the instructions they stand for: one of each
family, with the words the rules of 41 to 47 give as their examples. -/
def Obligations.ExampleWordsDecode : Prop :=
  decodeWords [0] = .ok (.halt, 1) ∧
  decodeWords [1, 32768, 6] = .ok (.set 0 (.lit 6), 3) ∧
  decodeWords [4, 32768, 32769, 5] = .ok (.equal 0 (.reg 1) (.lit 5), 4) ∧
  decodeWords [7, 32768, 3] = .ok (.jumpTrue (.reg 0) (.lit 3), 3) ∧
  decodeWords [9, 32768, 32769, 4] = .ok (.add 0 (.reg 1) (.lit 4), 4) ∧
  decodeWords [16, 32768, 19] = .ok (.writeMemory (.reg 0) (.lit 19), 3) ∧
  decodeWords [20, 32775] = .ok (.inp 7, 2)

/-- A running core whose words at pc decode to an instruction runs that instruction, and nothing is
added around it (40_execution_cycle.md section 1). -/
def Obligations.StepRunsTheDecodedInstruction : Prop :=
  ∀ (s : State) (i : Instr) (n : Nat), s.status = .running →
    decode s.memRead s.pc = .ok (i, n) → n = s.pc + 1 + i.arity ∧ step s = exec i s

/-- A running core whose memory holds an instruction's encoding at pc runs that instruction, whatever
stands around it (40_execution_cycle.md section 1, 30_encoding.md section 3). -/
def Obligations.StepRunsTheEncodedWords : Prop :=
  ∀ (s : State) (i : Instr), s.status = .running →
    (∀ k w, (encode i)[k]? = some w → s.memRead (s.pc + k) = .ok w) → step s = exec i s

/-- UnknownOpcode is raised exactly when the opcode word at the pc is above 21, and then nothing but
the status changes (60_exceptions.md section 1, 30_encoding.md section 3; that nothing else changes is the
spec's decision D13, 60_exceptions.md section 2, log 13). -/
def Obligations.UnknownOpcodeExactlyAbove21 : Prop :=
  ∀ (s : State) (w : Cell), s.status = .running → s.memRead s.pc = .ok w →
    ((∃ t rec, step s = .next t ∧ t.status = .faulted rec ∧ rec.reason = .unknownOpcode) ↔
      21 < w.toNat) ∧
    (21 < w.toNat → ∃ rec, step s = .next { s with status := .faulted rec } ∧
      rec.reason = .unknownOpcode)

/-- Decoding reports the first fault met, operands in ascending order, with the record of the step's
pc and the word or address at fault, and changes only the status (30_encoding.md section 3; the spec's
own decisions D5, D6, D12, log 7, 8, 12). -/
def Obligations.FirstDecodeFaultIsReported : Prop :=
  ∀ s : State, s.status = .running →
    (s.launch.extent ≤ s.pc → step s =
      .next { s with status := .faulted ⟨.outOfBounds, s.pc, some s.pc, none⟩ }) ∧
    ∀ w, s.memRead s.pc = .ok w →
      (21 < w.toNat → step s =
        .next { s with status := .faulted ⟨.unknownOpcode, s.pc, some w.toNat, none⟩ }) ∧
      ∀ ks k kind, operandKinds w.toNat = some ks → ks[k]? = some kind →
        (∀ j kj, j < k → ks[j]? = some kj →
          ∃ wj, s.memRead (s.pc + 1 + j) = .ok wj ∧ kj.admits wj = true) →
        (s.launch.extent ≤ s.pc + 1 + k → step s =
          .next { s with status := .faulted ⟨.outOfBounds, s.pc, some (s.pc + 1 + k), none⟩ }) ∧
        ∀ wk, s.memRead (s.pc + 1 + k) = .ok wk →
          (32775 < wk.toNat → step s =
            .next { s with status := .faulted ⟨.invalidOperand, s.pc, some wk.toNat, none⟩ }) ∧
          (kind = .reg → wk.toNat ≤ 32767 → step s =
            .next { s with status := .faulted ⟨.registerExpected, s.pc, some wk.toNat, none⟩ })

/-! ## What each instruction does -/

/-- Halt (41_machine_control.md): the status becomes Halted and nothing else changes, wherever it
stands; that the pc stays is the spec's decision D17, log 16. -/
def Obligations.HaltChangesOnlyTheStatus : Prop :=
  encode .halt = [0#16] ∧ ∀ s : State, exec .halt s = .next { s with status := .halted }

/-- NoOp (41_machine_control.md): only the pc advances, by one. -/
def Obligations.NoOpOnlyAdvancesThePc : Prop :=
  encode .noOp = [21#16] ∧
  ∀ s : State, s.pc + 1 < s.launch.extent → exec .noOp s = .next { s with pc := s.pc + 1 }

/-- Set (42_register_and_stack.md R121). -/
def Obligations.SetWritesTheValue : Prop :=
  ∀ (a : Reg) (b : Operand) (s : State),
    encode (.set a b) = [1#16, encodeOperand (.reg a), encodeOperand b] ∧
    (s.pc + 3 < s.launch.extent → ∃ t, exec (.set a b) s = .next t ∧
      t.reg a = s.val b ∧ t.pc = s.pc + 3 ∧ RegisterFrame a s t)

/-- Push (42_register_and_stack.md): the value goes on the tail of a stack that is not full; on a full
stack, which only a finite depth has, StackOverflow and nothing pushed (decision D14, log 14). -/
def Obligations.PushAppendsOrOverflows : Prop :=
  ∀ (a : Operand) (s : State),
    encode (.push a) = [2#16, encodeOperand a] ∧
    ((∀ d, s.launch.stackDepth = some d → s.stack.length < d) → s.pc + 2 < s.launch.extent →
      ∃ t, exec (.push a) s = .next t ∧
        t.stack = s.stack ++ [(s.val a).toNat] ∧ t.pc = s.pc + 2 ∧ StackFrame s t) ∧
    (∀ d, s.launch.stackDepth = some d → d ≤ s.stack.length → exec (.push a) s =
      .next { s with
        status := .faulted ⟨.stackOverflow, s.pc, some (s.val a).toNat, some (.push a)⟩ })

/-- Pop (42_register_and_stack.md): the tail entry goes to the register and leaves the stack; an empty
stack raises StackUnderflow, an entry above 32767 WordOutOfRange, both with all else unchanged (the
latter the spec's decision D7, log 9; the record D12, log 12). -/
def Obligations.PopTakesTheTail : Prop :=
  ∀ (a : Reg) (s : State),
    encode (.pop a) = [3#16, encodeOperand (.reg a)] ∧
    (∀ st v, s.stack = st ++ [v] → v ≤ 32767 → s.pc + 2 < s.launch.extent →
      ∃ t, exec (.pop a) s = .next t ∧ (t.reg a).toNat = v ∧ t.stack = st ∧ t.pc = s.pc + 2 ∧
        KeepsRegsBut a s t ∧ KeepsMem s t ∧ KeepsIo s t ∧ t.status = s.status) ∧
    (∀ st v, s.stack = st ++ [v] → 32767 < v → exec (.pop a) s =
      .next { s with status := .faulted ⟨.wordOutOfRange, s.pc, some v, some (.pop a)⟩ }) ∧
    (s.stack = [] → exec (.pop a) s =
      .next { s with status := .faulted ⟨.stackUnderflow, s.pc, none, some (.pop a)⟩ })

/-- Equal (43_compare.md R130). -/
def Obligations.EqualWritesOneOrZero : Prop :=
  ∀ (a : Reg) (b c : Operand) (s : State),
    encode (.equal a b c) =
      [4#16, encodeOperand (.reg a), encodeOperand b, encodeOperand c] ∧
    (s.pc + 4 < s.launch.extent → ∃ t, exec (.equal a b c) s = .next t ∧
      (t.reg a).toNat = (if s.val b = s.val c then 1 else 0) ∧ t.pc = s.pc + 4 ∧
      RegisterFrame a s t)

/-- GreaterThan, unsigned and strict (43_compare.md R131). -/
def Obligations.GreaterThanIsUnsignedAndStrict : Prop :=
  ∀ (a : Reg) (b c : Operand) (s : State),
    encode (.greaterThan a b c) =
      [5#16, encodeOperand (.reg a), encodeOperand b, encodeOperand c] ∧
    (s.pc + 4 < s.launch.extent → ∃ t, exec (.greaterThan a b c) s = .next t ∧
      (t.reg a).toNat = (if (s.val c).toNat < (s.val b).toNat then 1 else 0) ∧ t.pc = s.pc + 4 ∧
      RegisterFrame a s t)

/-- Jump (44_branch.md): the pc becomes val(a) inside the extent; outside it OutOfBounds with val(a) as
detail, and only the status changes (that the pc stays is the spec's decision D11,
40_execution_cycle.md section 3, log 11). -/
def Obligations.JumpGoesToItsTargetOrFaults : Prop :=
  ∀ (a : Operand) (s : State),
    encode (.jump a) = [6#16, encodeOperand a] ∧
    ((s.val a).toNat < s.launch.extent → ∃ t, exec (.jump a) s = .next t ∧
      t.pc = (s.val a).toNat ∧ ControlFrame s t) ∧
    (s.launch.extent ≤ (s.val a).toNat → ∃ rec,
      exec (.jump a) s = .next { s with status := .faulted rec } ∧
      rec.reason = .outOfBounds ∧ rec.detail = some (s.val a).toNat)

/-- JumpTrue (44_branch.md): taken on any non-zero value, else the fallthrough; OutOfBounds where the
next pc is outside the extent, and only the status changes (that the pc stays is the spec's decision
D11, 40_execution_cycle.md section 3, log 11). -/
def Obligations.JumpTrueIsTakenOnNonZero : Prop :=
  ∀ (a b : Operand) (s : State) (next : Nat),
    next = (if (s.val a).toNat ≠ 0 then (s.val b).toNat else s.pc + 3) →
    encode (.jumpTrue a b) = [7#16, encodeOperand a, encodeOperand b] ∧
    (next < s.launch.extent → ∃ t, exec (.jumpTrue a b) s = .next t ∧
      t.pc = next ∧ ControlFrame s t) ∧
    (s.launch.extent ≤ next → ∃ rec,
      exec (.jumpTrue a b) s = .next { s with status := .faulted rec } ∧
      rec.reason = .outOfBounds ∧ rec.detail = some next)

/-- JumpFalse (44_branch.md): taken on zero, else the fallthrough; OutOfBounds where the next pc is
outside the extent, and only the status changes (that the pc stays is the spec's decision D11,
40_execution_cycle.md section 3, log 11). -/
def Obligations.JumpFalseIsTakenOnZero : Prop :=
  ∀ (a b : Operand) (s : State) (next : Nat),
    next = (if (s.val a).toNat = 0 then (s.val b).toNat else s.pc + 3) →
    encode (.jumpFalse a b) = [8#16, encodeOperand a, encodeOperand b] ∧
    (next < s.launch.extent → ∃ t, exec (.jumpFalse a b) s = .next t ∧
      t.pc = next ∧ ControlFrame s t) ∧
    (s.launch.extent ≤ next → ∃ rec,
      exec (.jumpFalse a b) s = .next { s with status := .faulted rec } ∧
      rec.reason = .outOfBounds ∧ rec.detail = some next)

/-- Add (45_alu.md R150). -/
def Obligations.AddIsTheSumModulo32768 : Prop :=
  ∀ (a : Reg) (b c : Operand) (s : State),
    encode (.add a b c) = [9#16, encodeOperand (.reg a), encodeOperand b, encodeOperand c] ∧
    (s.pc + 4 < s.launch.extent → ∃ t, exec (.add a b c) s = .next t ∧
      (t.reg a).toNat = ((s.val b).toNat + (s.val c).toNat) % 32768 ∧ t.pc = s.pc + 4 ∧
      RegisterFrame a s t)

/-- Multiply (45_alu.md R151). -/
def Obligations.MultiplyIsTheProductModulo32768 : Prop :=
  ∀ (a : Reg) (b c : Operand) (s : State),
    encode (.multiply a b c) =
      [10#16, encodeOperand (.reg a), encodeOperand b, encodeOperand c] ∧
    (s.pc + 4 < s.launch.extent → ∃ t, exec (.multiply a b c) s = .next t ∧
      (t.reg a).toNat = ((s.val b).toNat * (s.val c).toNat) % 32768 ∧ t.pc = s.pc + 4 ∧
      RegisterFrame a s t)

/-- Modulo (45_alu.md section 2): the unsigned remainder; a zero divisor raises DivideByZero with no
detail and changes only the status, whatever the dividend (that all else stays, beyond the register
file, is the spec's decision D13, 60_exceptions.md section 2, log 13). -/
def Obligations.ModuloIsTheRemainderOrFaults : Prop :=
  ∀ (a : Reg) (b c : Operand) (s : State),
    encode (.modulo a b c) =
      [11#16, encodeOperand (.reg a), encodeOperand b, encodeOperand c] ∧
    ((s.val c).toNat ≠ 0 → s.pc + 4 < s.launch.extent → ∃ t, exec (.modulo a b c) s = .next t ∧
      (t.reg a).toNat = (s.val b).toNat % (s.val c).toNat ∧ t.pc = s.pc + 4 ∧
      RegisterFrame a s t) ∧
    ((s.val c).toNat = 0 → ∃ rec,
      exec (.modulo a b c) s = .next { s with status := .faulted rec } ∧
      rec.reason = .divideByZero ∧ rec.detail = none)

/-- And (45_alu.md R153). -/
def Obligations.AndIsBitwise : Prop :=
  ∀ (a : Reg) (b c : Operand) (s : State),
    encode (.and a b c) = [12#16, encodeOperand (.reg a), encodeOperand b, encodeOperand c] ∧
    (s.pc + 4 < s.launch.extent → ∃ t, exec (.and a b c) s = .next t ∧
      (t.reg a).toNat = (s.val b).toNat &&& (s.val c).toNat ∧ t.pc = s.pc + 4 ∧
      RegisterFrame a s t)

/-- Or (45_alu.md R154). -/
def Obligations.OrIsBitwise : Prop :=
  ∀ (a : Reg) (b c : Operand) (s : State),
    encode (.or a b c) = [13#16, encodeOperand (.reg a), encodeOperand b, encodeOperand c] ∧
    (s.pc + 4 < s.launch.extent → ∃ t, exec (.or a b c) s = .next t ∧
      (t.reg a).toNat = (s.val b).toNat ||| (s.val c).toNat ∧ t.pc = s.pc + 4 ∧
      RegisterFrame a s t)

/-- Not (45_alu.md R155): the 15-bit complement, and applied twice the identity. -/
def Obligations.NotIsTheComplementAndAnInvolution : Prop :=
  ∀ (a : Reg) (b : Operand) (s : State),
    encode (.not a b) = [14#16, encodeOperand (.reg a), encodeOperand b] ∧
    (s.pc + 3 < s.launch.extent → ∃ t, exec (.not a b) s = .next t ∧
      (t.reg a).toNat = 32767 - (s.val b).toNat ∧ t.pc = s.pc + 3 ∧ RegisterFrame a s t ∧
      ∀ d : Reg, s.pc + 6 < s.launch.extent →
        ∃ u, exec (.not d (.reg a)) t = .next u ∧ u.reg d = s.val b)

/-- ReadMemory (46_memory_access.md): the cell at val(b) goes to the register; an address outside the
extent raises OutOfBounds, a cell above 32767 WordOutOfRange, both with all else unchanged (the latter
the spec's decision D7, log 9; the record D12, log 12). -/
def Obligations.ReadMemoryReadsTheCell : Prop :=
  ∀ (a : Reg) (b : Operand) (s : State),
    encode (.readMemory a b) = [15#16, encodeOperand (.reg a), encodeOperand b] ∧
    (∀ w, s.memRead (s.address b) = .ok w → w.toNat ≤ 32767 → s.pc + 3 < s.launch.extent →
      ∃ t, exec (.readMemory a b) s = .next t ∧
        (t.reg a).toNat = w.toNat ∧ t.pc = s.pc + 3 ∧ RegisterFrame a s t) ∧
    (∀ w, s.memRead (s.address b) = .ok w → 32767 < w.toNat → exec (.readMemory a b) s =
      .next { s with
        status := .faulted ⟨.wordOutOfRange, s.pc, some w.toNat, some (.readMemory a b)⟩ }) ∧
    (s.launch.extent ≤ s.address b → exec (.readMemory a b) s =
      .next { s with
        status := .faulted ⟨.outOfBounds, s.pc, some (s.address b), some (.readMemory a b)⟩ })

/-- WriteMemory (46_memory_access.md): the value of b goes to the cell at val(a) and every other address
reads as before; an address outside the extent raises OutOfBounds and changes only the status (that all
else stays, beyond memory, is the spec's decision D13, 60_exceptions.md section 2, log 13). Memory is
taken in canonical form, which every step keeps (StepKeepsTheInvariant). -/
def Obligations.WriteMemoryStoresOneCell : Prop :=
  ∀ (a b : Operand) (s : State), s.mem.wf = true →
    encode (.writeMemory a b) = [16#16, encodeOperand a, encodeOperand b] ∧
    (s.address a < s.launch.extent → s.pc + 3 < s.launch.extent →
      ∃ t, exec (.writeMemory a b) s = .next t ∧
        t.memRead (s.address a) = .ok (zext16 (s.val b)) ∧
        (∀ addr, addr ≠ s.address a → t.memRead addr = s.memRead addr) ∧
        t.pc = s.pc + 3 ∧ KeepsRegs s t ∧ t.stack = s.stack ∧ KeepsIo s t ∧
        t.status = s.status) ∧
    (s.launch.extent ≤ s.address a → ∃ rec,
      exec (.writeMemory a b) s = .next { s with status := .faulted rec } ∧
      rec.reason = .outOfBounds ∧ rec.detail = some (s.address a))

/-- Call (44_branch.md): the address after the Call goes on the stack and the pc to the target; a target
outside the extent raises OutOfBounds with the push kept (decision D11, log 11), a full stack
StackOverflow with nothing pushed (D14, log 14). -/
def Obligations.CallPushesItsFallthrough : Prop :=
  ∀ (a : Operand) (s : State),
    encode (.call a) = [17#16, encodeOperand a] ∧
    ((∀ d, s.launch.stackDepth = some d → s.stack.length < d) →
      ((s.val a).toNat < s.launch.extent → ∃ t, exec (.call a) s = .next t ∧
        t.stack = s.stack ++ [s.pc + 2] ∧ t.pc = (s.val a).toNat ∧ StackFrame s t) ∧
      (s.launch.extent ≤ (s.val a).toNat → exec (.call a) s = .next { s with
        stack := s.stack ++ [s.pc + 2]
        status := .faulted ⟨.outOfBounds, s.pc, some (s.val a).toNat, some (.call a)⟩ })) ∧
    (∀ d, s.launch.stackDepth = some d → d ≤ s.stack.length → exec (.call a) s =
      .next { s with
        status := .faulted ⟨.stackOverflow, s.pc, some (s.pc + 2), some (.call a)⟩ })

/-- Return (44_branch.md): an empty stack halts, with the pc at the Return (the spec's decision D17, log
16); otherwise the tail is popped and becomes the pc, OutOfBounds with the pop kept and the pc at the
Return where it is outside the extent (decision D11, 40_execution_cycle.md section 3, log 11). -/
def Obligations.ReturnPopsOrHalts : Prop :=
  encode .ret = [18#16] ∧ ∀ s : State,
    (s.stack = [] → exec .ret s = .next { s with status := .halted }) ∧
    ∀ st v, s.stack = st ++ [v] →
      (v < s.launch.extent → ∃ t, exec .ret s = .next t ∧
        t.pc = v ∧ t.stack = st ∧ StackFrame s t) ∧
      (s.launch.extent ≤ v → ∃ t rec, exec .ret s = .next t ∧
        t.status = .faulted rec ∧ rec.reason = .outOfBounds ∧ t.stack = st ∧ t.pc = s.pc)

/-- Out (47_io.md): the value is appended to the output, as a Word (decision D10). -/
def Obligations.OutAppendsTheValue : Prop :=
  ∀ (a : Operand) (s : State),
    encode (.out a) = [19#16, encodeOperand a] ∧
    (s.pc + 2 < s.launch.extent → ∃ t, exec (.out a) s = .next t ∧
      t.out = s.out ++ [s.val a] ∧ t.pc = s.pc + 2 ∧ KeepsRegs s t ∧ t.stack = s.stack ∧
      KeepsMem s t ∧ t.inpos = s.inpos ∧ t.launch = s.launch ∧ t.status = s.status)

/-- In (47_io.md): the next code of INPUT goes to the register and is consumed; the end of INPUT raises
EndOfInput, a code above 32767 WordOutOfRange, both with all else unchanged (decisions D7, D8, D9, log
9, 10). -/
def Obligations.InTakesOneCode : Prop :=
  ∀ (a : Reg) (s : State),
    encode (.inp a) = [20#16, encodeOperand (.reg a)] ∧
    (∀ c, s.launch.input[s.inpos]? = some c → c ≤ 32767 → s.pc + 2 < s.launch.extent →
      ∃ t, exec (.inp a) s = .next t ∧ (t.reg a).toNat = c ∧ t.inpos = s.inpos + 1 ∧
        t.pc = s.pc + 2 ∧ KeepsRegsBut a s t ∧ t.stack = s.stack ∧ KeepsMem s t ∧
        t.out = s.out ∧ t.launch = s.launch ∧ t.status = s.status) ∧
    (∀ c, s.launch.input[s.inpos]? = some c → 32767 < c → exec (.inp a) s =
      .next { s with status := .faulted ⟨.wordOutOfRange, s.pc, some c, some (.inp a)⟩ }) ∧
    (s.launch.input.length ≤ s.inpos → exec (.inp a) s =
      .next { s with status := .faulted ⟨.endOfInput, s.pc, none, some (.inp a)⟩ })

/-! ## Faults -/

/-- StackUnderflow is Pop on an empty stack and nothing else; a Return on an empty stack halts
(60_exceptions.md R184). -/
def Obligations.StackUnderflowIsPopOnEmptyStackOnly : Prop :=
  ∀ (i : Instr) (s : State), s.status = .running →
    ((∃ t rec, exec i s = .next t ∧ t.status = .faulted rec ∧ rec.reason = .stackUnderflow) ↔
      (∃ a, i = .pop a) ∧ s.stack = []) ∧
    (i = .ret → s.stack = [] → ∃ t, exec i s = .next t ∧ t.status = .halted)

/-- DivideByZero is Modulo with a zero divisor and nothing else (60_exceptions.md R185). -/
def Obligations.DivideByZeroIsModuloByZeroOnly : Prop :=
  ∀ (i : Instr) (s : State), s.status = .running →
    ((∃ t rec, exec i s = .next t ∧ t.status = .faulted rec ∧ rec.reason = .divideByZero) ↔
      ∃ a b c, i = .modulo a b c ∧ (s.val c).toNat = 0)

/-- Every fault record a step leaves names the pc of the step, and its reason, detail and instruction
fit the table of 60_exceptions.md section 1 (decisions D5, D7, D8, D12, D14; log 7, 9, 10, 12, 14). -/
def Obligations.FaultRecordsFitTheTable : Prop :=
  ∀ (s t : State) (rec : FaultRecord), step s = .next t → t.status = .faulted rec →
    rec.pc = s.pc ∧ t.pc = s.pc ∧ rec.fitsTable s.launch.extent

/-- A fault of an instruction is precise, or it is the sequencer's and keeps the effect: then it is
OutOfBounds at the next pc, and a larger memory would have completed the instruction with the very
same effect (60_exceptions.md section 2, decisions D11 and D13, log 11 and 13). -/
def Obligations.FaultsArePreciseOrKeepTheEffect : Prop :=
  ∀ (i : Instr) (s t : State) (rec : FaultRecord), s.status = .running →
    exec i s = .next t → t.status = .faulted rec →
    rec.pc = s.pc ∧ rec.instr = some i ∧
    (t = { s with status := .faulted rec } ∨
      ∃ next, s.launch.extent ≤ next ∧ rec.reason = .outOfBounds ∧ rec.detail = some next ∧
        t.pc = s.pc ∧ ∀ n, next < n → exec i (s.withExtent n) =
          .next { t.withExtent n with pc := next, status := .running })

/-- The sequencer (40_execution_cycle.md section 3, decision D11, log 11): an instruction that completes
in a larger memory with its next pc outside this one raises OutOfBounds there, with the next pc as detail,
the pc at the instruction and every other effect kept. A ReadMemory or WriteMemory whose own address lies
outside this memory faults earlier, at its access. -/
def Obligations.NextPcOutsideTheExtentFaults : Prop :=
  ∀ (i : Instr) (s t : State) (n : Nat), s.status = .running →
    exec i (s.withExtent n) = .next t → t.status = .running → s.launch.extent ≤ t.pc →
    (∀ a b, i = .readMemory a b → s.address b < s.launch.extent) →
    (∀ a b, i = .writeMemory a b → s.address a < s.launch.extent) →
    exec i s = .next { t.withExtent s.launch.extent with
      pc := s.pc
      status := .faulted ⟨.outOfBounds, s.pc, some t.pc, some i⟩ }

/-! ## Rules of the whole machine -/

/-- A step exists exactly in status Running: a running core always has a next state, and no step leaves
Halted or Faulted (40_execution_cycle.md section 1, 10_state.md section 4). That a running core never
gets stuck rests on INPUT being finite, so that the hold of In never lasts (47_io.md R173, R174, the
spec's decision D9, log 10), and on a core fault being a next state (log 6, DEDUCED). -/
def Obligations.StepExistsExactlyWhenRunning : Prop :=
  ∀ s : State, (∃ t, step s = .next t) ↔ s.status = .running

/-- Only Halt, and Return on an empty stack, end a run with Halted, whose exit code is 0
(41_machine_control.md R116). -/
def Obligations.OnlyHaltAndEmptyReturnHalt : Prop :=
  (∀ (i : Instr) (s t : State), s.status = .running → exec i s = .next t →
    (t.status = .halted ↔ i = .halt ∨ (i = .ret ∧ s.stack = []))) ∧
  exitCode .halted = some 0

/-- A step changes at most one register, and only the destination of one of the twelve instructions
with a Reg position (10_state.md section 2). -/
def Obligations.OnlyTheDestinationRegisterChanges : Prop :=
  ∀ (s t : State) (r : Reg), step s = .next t → t.reg r ≠ s.reg r →
    ∃ i n, s.fetch = .ok (i, n) ∧ i.operands.head? = some (.reg r) ∧
      i.opcode ∈ [1, 3, 4, 5, 9, 10, 11, 12, 13, 14, 15, 20] ∧
      ∀ q, q ≠ r → t.reg q = s.reg q

/-- Only Push, Call, Pop and Return access the stack, each by at most one entry at the tail
(10_state.md R34). -/
def Obligations.OnlyFourInstructionsTouchTheStack : Prop :=
  ∀ (i : Instr) (s t : State), exec i s = .next t →
    t.stack = s.stack ∨
    (((∃ a, i = .push a) ∨ ∃ a, i = .call a) ∧ ∃ v, t.stack = s.stack ++ [v]) ∨
    (((∃ a, i = .pop a) ∨ i = .ret) ∧ ∃ v, s.stack = t.stack ++ [v])

/-- Memory changes only by WriteMemory, at the one address val(a), to the Word val(b)
(10_state.md section 6, 20_memory.md section 1). -/
def Obligations.OnlyWriteMemoryChangesMemory : Prop :=
  ∀ (s t : State) (addr : Nat), s.mem.wf = true → step s = .next t →
    t.memRead addr ≠ s.memRead addr →
    ∃ a b n, s.fetch = .ok (.writeMemory a b, n) ∧ addr = s.address a ∧
      t.memRead addr = .ok (zext16 (s.val b))

/-- The output port only appends; nothing clears it, and nothing reads it back: with any other output
so far, a step does the same and appends the same (47_io.md R171). -/
def Obligations.OutputOnlyAppendsAndIsNeverRead : Prop :=
  ∀ (s t : State) (o : List Word), step s = .next t →
    ∃ d, t.out = s.out ++ d ∧
      step { s with out := o } = .next { t with out := o ++ d }

/-- N is fixed for the whole run and memory never grows: no step changes the launch parameters, and an
access at N or above still faults (10_state.md R36). -/
def Obligations.MemoryNeverGrows : Prop :=
  ∀ s t : State, step s = .next t → t.launch = s.launch ∧
    ∀ addr, s.launch.extent ≤ addr →
      t.memRead addr = .error { reason := .outOfBounds, detail := some addr } ∧
      ∀ v, t.memWrite addr v = .error { reason := .outOfBounds, detail := some addr }

/-- While Running the pc is within the extent: after every step, and at every launch but the one with
N = 0, where it is 0 (10_state.md R26). -/
def Obligations.RunningPcStaysInTheExtent : Prop :=
  (∀ s t : State, step s = .next t → t.status = .running → t.pc < t.launch.extent) ∧
  (∀ params image s, State.launched params image = .ok s →
    s.pc < s.launch.extent ∨ (s.launch.extent = 0 ∧ s.pc = 0))

/-- Where the next pc of a running core comes from, opcode by opcode (40_execution_cycle.md R100). -/
def Obligations.NextPcComesFromItsSource : Prop :=
  ∀ (i : Instr) (s t : State), s.status = .running → exec i s = .next t → t.status = .running →
    match i with
    | .halt => False
    | .jump a | .call a => t.pc = (s.val a).toNat
    | .jumpTrue a b => t.pc = if (s.val a).toNat ≠ 0 then (s.val b).toNat else s.pc + 3
    | .jumpFalse a b => t.pc = if (s.val a).toNat = 0 then (s.val b).toNat else s.pc + 3
    | .ret => ∃ st v, s.stack = st ++ [v] ∧ t.pc = v
    | _ => t.pc = s.pc + 1 + i.arity

/-- The state after reset meets the invariant (70_reset_and_hazards.md section 1; its launch
parameters are the model's choice, log 2). -/
def Obligations.ResetMeetsTheInvariant : Prop := State.reset.Inv

/-- Every launched core meets the invariant (70_reset_and_hazards.md sections 1 and 2). -/
def Obligations.LaunchMeetsTheInvariant : Prop :=
  ∀ params image s, State.launched params image = .ok s → s.Inv

/-- Every step keeps the invariant: the pc in the extent, memory canonical and in the extent, stack
entries and depth, the input position, and the fault record's pc, from every state that meets it
(10_state.md, 20_memory.md, 60_exceptions.md). -/
def Obligations.StepKeepsTheInvariant : Prop :=
  ∀ s t : State, s.Inv → step s = .next t → t.Inv

/-- Call, then Return with the stack as the Call left it, resumes at the instruction following the
Call, with the stack as it was before (44_branch.md section on Return, source property Q4). -/
def Obligations.ReturnResumesAfterTheCall : Prop :=
  ∀ (a : Operand) (s t u : State), s.status = .running → exec (.call a) s = .next t →
    t.status = .running → s.pc + 2 < s.launch.extent →
    u.stack = t.stack → u.launch = t.launch →
    exec .ret u = .next { u with pc := s.pc + 2, stack := s.stack }

/-- Push and then Pop returns the pushed value unchanged and leaves the stack as it was
(42_register_and_stack.md R124). -/
def Obligations.PushThenPopReturnsTheValue : Prop :=
  ∀ (a : Operand) (r : Reg) (s t : State), s.status = .running → exec (.push a) s = .next t →
    t.status = .running → s.pc + 4 < s.launch.extent →
    ∃ u, exec (.pop r) t = .next u ∧ u.reg r = s.val a ∧ u.stack = s.stack ∧ u.pc = s.pc + 4

/-- WriteMemory then ReadMemory at the same address returns the written value, also where the address
lies in the instruction stream: the next fetch there sees the word written (46_memory_access.md, source
property Q5, 20_memory.md section 3). -/
def Obligations.WrittenCellIsReadAndFetched : Prop :=
  ∀ (a b : Operand) (r : Reg) (s t : State), s.mem.wf = true → s.status = .running →
    exec (.writeMemory a b) s = .next t → t.status = .running →
    (t.pc + 3 < t.launch.extent →
      ∃ u, exec (.readMemory r (.lit (s.val a))) t = .next u ∧ u.reg r = s.val b) ∧
    (t.pc = s.address a → (s.val b).toNat = 0 →
      ∃ u, step t = .next u ∧ u.status = .halted) ∧
    (t.pc = s.address a → 21 < (s.val b).toNat →
      ∃ u rec, step t = .next u ∧ u.status = .faulted rec ∧ rec.reason = .unknownOpcode ∧
        rec.detail = some (s.val b).toNat)

/-- Subtraction by the three-instruction idiom Not, Add 1, Add gives b - c modulo 32768
(30_encoding.md section 5, derived by the spec from R150 and R155). -/
def Obligations.SubtractionIdiomSubtracts : Prop :=
  ∀ (ra rt : Reg) (b c : Operand) (s : State), b ≠ .reg rt → s.pc + 11 < s.launch.extent →
    ∃ t u v, exec (.not rt c) s = .next t ∧ exec (.add rt (.reg rt) (.lit 1)) t = .next u ∧
      exec (.add ra b (.reg rt)) u = .next v ∧
      (v.reg ra).toNat = ((s.val b).toNat + 32768 - (s.val c).toNat) % 32768

/-- A step that does not fault does the very same in any larger memory: the open parameter N shows only
in a fault (00_scope.md section 4, decision D1; 20_memory.md section 1 and 40_execution_cycle.md section
3, since no clean step reads a cell or takes a pc beyond the smaller extent). -/
def Obligations.LargerMemoryDoesNotChangeACleanStep : Prop :=
  ∀ (s t : State) (n : Nat), CleanStep s t → s.launch.extent ≤ n →
    CleanStep (s.withExtent n) (t.withExtent n)

/-- With a finite stack a step either does what the unbounded stack of this hardware does, or it raises
StackOverflow with nothing but the status changed (00_scope.md section 4, decision D14, log 14). -/
def Obligations.FiniteStackIsUnboundedUntilItOverflows : Prop :=
  ∀ s t : State, step s = .next t →
    step s.withUnboundedStack = .next t.withUnboundedStack ∨
    ∃ rec, t = { s with status := .faulted rec } ∧ rec.reason = .stackOverflow

/-! ## Reset, boot and the host -/

/-- At reset the pc is 0 and the status Running, at every launch and in State.reset
(10_state.md R27). -/
def Obligations.RunsStartAtAddressZero : Prop :=
  (State.reset.pc = 0 ∧ State.reset.status = .running) ∧
  ∀ params image s, State.launched params image = .ok s → s.pc = 0 ∧ s.status = .running

/-- A launch succeeds exactly for L <= N <= 32768, and then memory holds the image from address 0 and
zeros above it, every register is 0, the stack and output are empty and no input is consumed
(70_reset_and_hazards.md sections 1 and 2; decisions D1, D2, D3, D4, log 4, 5, 23). -/
def Obligations.LaunchPlacesTheImage : Prop :=
  ∀ params image,
    ((∃ s, State.launched params image = .ok s) ↔
      image.length ≤ params.extent ∧ params.extent ≤ 32768) ∧
    ∀ s, State.launched params image = .ok s →
      (∀ k w, image[k]? = some w → s.memRead k = .ok w) ∧
      (∀ k, image.length ≤ k → k < params.extent → s.memRead k = .ok 0) ∧
      (∀ k, params.extent ≤ k →
        s.memRead k = .error { reason := .outOfBounds, detail := some k }) ∧
      (∀ r, s.reg r = 0) ∧ s.stack = [] ∧ s.out = [] ∧ s.inpos = 0 ∧ s.launch = params

/-- The loader (70_reset_and_hazards.md R213): an odd byte count is a LoadError; otherwise the image has
half as many words, word k being byte 2k + 256 * byte (2k+1). -/
def Obligations.LoaderReadsLittleEndianWords : Prop :=
  ∀ bytes : List Byte,
    (bytes.length % 2 = 1 → loadImage bytes = .error .oddByteCount) ∧
    (bytes.length % 2 = 0 → ∃ image, loadImage bytes = .ok image ∧
      image.length = bytes.length / 2 ∧
      ∀ k lo hi, bytes[2 * k]? = some lo → bytes[2 * k + 1]? = some hi →
        ∃ w, image[k]? = some w ∧ w.toNat = lo.toNat + 256 * hi.toNat)

/-- With an empty memory the first step faults at address 0 (70_reset_and_hazards.md section 1,
decision D20). -/
def Obligations.EmptyMemoryFaultsAtTheFirstFetch : Prop :=
  ∀ (params : LaunchParams) (s : State), params.extent = 0 →
    State.launched params [] = .ok s →
    step s = .next { s with status := .faulted ⟨.outOfBounds, 0, some 0, none⟩ }

/-- The trace hook reports every step that does not fault, and only those: the pc, the decoded opcode
and operands, and the resulting pc (60_exceptions.md section 6, decision D18, log 17). -/
def Obligations.TraceReportsExactlyTheCleanSteps : Prop :=
  ∀ s : State,
    (∀ t, CleanStep s t → ∃ i n, s.fetch = .ok (i, n) ∧
      traceStep s = some ⟨s.pc, i.opcode, i.operands, t.pc⟩) ∧
    ((∀ t, ¬ CleanStep s t) → traceStep s = none)

/-- The exit code is 0 on Halted and nonzero on Faulted, whatever the value the spec leaves free
(60_exceptions.md R203). -/
def Obligations.ExitCodeIsZeroExactlyOnHalted : Prop :=
  exitCode .halted = some 0 ∧ ∀ rec, ∃ c, exitCode (.faulted rec) = some c ∧ c ≠ 0
end

