-- ==== Sys2Proof/Laws/Memory.lean ====
section
/-! SUPPORT. Memory: a write is read back and changes no other address, every memory operation keeps
the canonical form, and canonical memories that read the same are the same. -/

namespace Sys2Proof.Machine

/-! ## The canonical form -/

/-- Every listed address is above `a`. -/
def Memory.above (a : Nat) (m : Memory) : Prop := ∀ c ∈ m, a < c.1

theorem Memory.wf_nil : Memory.wf [] = true := rfl

theorem Memory.wf_cons {a : Nat} {v : Cell} {m : Memory} :
    Memory.wf ((a, v) :: m) = true ↔ v ≠ 0 ∧ Memory.above a m ∧ Memory.wf m = true := by
  simp [Memory.wf, Memory.above, and_assoc]

theorem Memory.read_of_above {a : Nat} : ∀ {m : Memory}, Memory.above a m → m.read a = 0
  | [], _ => rfl
  | (b, w) :: m, h => by
    have hb : a < b := h (b, w) (by simp)
    have hm : Memory.above a m := fun c hc => h c (List.mem_cons_of_mem _ hc)
    simp [Memory.read, Nat.ne_of_lt hb, Memory.read_of_above hm]

theorem Memory.above_trans {a b : Nat} {m : Memory} (hab : a < b) (h : Memory.above b m) :
    Memory.above a m := fun c hc => Nat.lt_trans hab (h c hc)

theorem Memory.mem_write {m : Memory} {a : Nat} {v : Cell} {c : Nat × Cell} :
    c ∈ m.write a v → c = (a, v) ∨ c ∈ m := by
  induction m with
  | nil => unfold Memory.write; split <;> simp
  | cons head tail ih =>
    obtain ⟨b, w⟩ := head
    unfold Memory.write
    split
    · split
      · exact .inr
      · exact List.mem_cons.mp
    · split
      · split
        · exact fun h => .inr (List.mem_cons_of_mem _ h)
        · rintro (_ | ⟨_, h⟩)
          · exact .inl rfl
          · exact .inr (List.mem_cons_of_mem _ h)
      · rintro (_ | ⟨_, h⟩)
        · exact .inr (by simp)
        · exact (ih h).imp id (List.mem_cons_of_mem _)

/-- A write keeps the canonical form. -/
theorem Memory.write_wf {m : Memory} (a : Nat) (v : Cell) (h : m.wf = true) :
    (m.write a v).wf = true := by
  induction m with
  | nil =>
    unfold Memory.write
    split
    · rfl
    · simpa [Memory.wf] using ‹_›
  | cons head tail ih =>
    obtain ⟨b, w⟩ := head
    obtain ⟨hw, hab, ht⟩ := Memory.wf_cons.mp h
    unfold Memory.write
    split
    · rename_i hlt
      split
      · exact h
      · refine Memory.wf_cons.mpr ⟨‹_›, ?_, h⟩
        rintro c (_ | ⟨_, hc⟩)
        · exact hlt
        · exact Nat.lt_trans hlt (hab c hc)
    · split
      · rename_i heq
        subst heq
        split
        · exact ht
        · exact Memory.wf_cons.mpr ⟨‹_›, hab, ht⟩
      · refine Memory.wf_cons.mpr ⟨hw, ?_, ih ht⟩
        intro c hc
        rcases Memory.mem_write hc with rfl | hc
        · show b < a
          omega
        · exact hab c hc

/-! ## Read after write -/

/-- In a canonical memory a written cell reads back the value written (20_memory.md R56). -/
theorem Memory.read_write_same {m : Memory} (a : Nat) (v : Cell) (h : m.wf = true) :
    (m.write a v).read a = v := by
  induction m with
  | nil =>
    unfold Memory.write
    split
    · simp_all [Memory.read]
    · simp [Memory.read]
  | cons head tail ih =>
    obtain ⟨b, w⟩ := head
    obtain ⟨-, hab, ht⟩ := Memory.wf_cons.mp h
    unfold Memory.write
    split
    · rename_i hlt
      split
      · rename_i hv
        subst hv
        refine Memory.read_of_above ?_
        rintro c (_ | ⟨_, hc⟩)
        · exact hlt
        · exact Nat.lt_trans hlt (hab c hc)
      · simp [Memory.read]
    · split
      · rename_i heq
        subst heq
        split
        · rename_i hv
          subst hv
          exact Memory.read_of_above hab
        · simp [Memory.read]
      · rename_i hne
        simp [Memory.read, hne, ih ht]

/-- A write leaves every other address as it was, in any memory (20_memory.md R56). -/
theorem Memory.read_write_ne {m : Memory} {a b : Nat} (hne : b ≠ a) (v : Cell) :
    (m.write a v).read b = m.read b := by
  induction m with
  | nil => unfold Memory.write; split <;> simp [Memory.read, hne]
  | cons head tail ih =>
    obtain ⟨c, w⟩ := head
    unfold Memory.write
    split
    · split <;> simp [Memory.read, hne]
    · split
      · rename_i heq
        subst heq
        split <;> simp [Memory.read, hne]
      · simp [Memory.read, ih]

theorem Memory.read_write {m : Memory} (a b : Nat) (v : Cell) (h : m.wf = true) :
    (m.write a v).read b = if b = a then v else m.read b := by
  split
  · rename_i heq
    subst heq
    exact Memory.read_write_same b v h
  · exact Memory.read_write_ne ‹_› v

/-- Equal canonical memories are equal data: two that read the same everywhere are the same list. -/
theorem Memory.ext_read {m m' : Memory} (h : m.wf = true) (h' : m'.wf = true)
    (hr : ∀ a, m.read a = m'.read a) : m = m' := by
  induction m generalizing m' with
  | nil =>
    cases m' with
    | nil => rfl
    | cons head tail =>
      obtain ⟨b, w⟩ := head
      have := hr b
      simp [Memory.read] at this
      exact absurd this.symm (Memory.wf_cons.mp h').1
  | cons head tail ih =>
    obtain ⟨b, w⟩ := head
    obtain ⟨hw, hab, ht⟩ := Memory.wf_cons.mp h
    cases m' with
    | nil =>
      have := hr b
      simp [Memory.read] at this
      exact absurd this hw
    | cons head' tail' =>
      obtain ⟨b', w'⟩ := head'
      obtain ⟨hw', hab', ht'⟩ := Memory.wf_cons.mp h'
      have hbb : b = b' := by
        rcases Nat.lt_trichotomy b b' with hlt | heq | hgt
        · have := hr b
          rw [Memory.read_of_above (m := (b', w') :: tail')] at this
          · simp [Memory.read] at this
            exact absurd this hw
          · rintro c (_ | ⟨_, hc⟩)
            · exact hlt
            · exact Nat.lt_trans hlt (hab' c hc)
        · exact heq
        · have := hr b'
          rw [Memory.read_of_above (m := (b, w) :: tail)] at this
          · simp [Memory.read] at this
            exact absurd this.symm hw'
          · rintro c (_ | ⟨_, hc⟩)
            · exact hgt
            · exact Nat.lt_trans hgt (hab c hc)
      subst hbb
      have hww : w = w' := by simpa [Memory.read] using hr b
      subst hww
      refine congrArg _ (ih ht ht' fun a => ?_)
      by_cases ha : a = b
      · subst ha
        rw [Memory.read_of_above hab, Memory.read_of_above hab']
      · simpa [Memory.read, ha] using hr a

/-! ## The image's memory -/

theorem imageMemory_above {base : Nat} {image : List Cell} {b : Nat} (h : b < base) :
    Memory.above b (imageMemory base image) := by
  induction image generalizing base with
  | nil => simp [imageMemory, Memory.above]
  | cons w ws ih =>
    unfold imageMemory
    split
    · exact ih (by omega)
    · rintro c (_ | ⟨_, hc⟩)
      · exact h
      · exact ih (base := base + 1) (by omega) c hc

/-- The loaded image is a memory in canonical form. -/
theorem imageMemory_wf (base : Nat) (image : List Cell) : (imageMemory base image).wf = true := by
  induction image generalizing base with
  | nil => rfl
  | cons w ws ih =>
    unfold imageMemory
    split
    · exact ih _
    · exact Memory.wf_cons.mpr ⟨‹_›, imageMemory_above (Nat.lt_succ_self _), ih _⟩

/-- No address of the loaded image's memory lies past the image. -/
theorem imageMemory_lt {base : Nat} {image : List Cell} {c : Nat × Cell}
    (h : c ∈ imageMemory base image) : c.1 < base + image.length := by
  induction image generalizing base with
  | nil => simp [imageMemory] at h
  | cons w ws ih =>
    unfold imageMemory at h
    split at h
    · have := ih h
      simp only [List.length_cons]
      omega
    · rcases List.mem_cons.mp h with rfl | h
      · simp
      · have := ih h
        simp only [List.length_cons]
        omega

/-- The loaded image reads word for word from `base` on, and zero after it. -/
theorem imageMemory_read (base : Nat) (image : List Cell) (k : Nat) :
    (imageMemory base image).read (base + k) = (image[k]?).getD 0 := by
  induction image generalizing base k with
  | nil => simp [imageMemory, Memory.read]
  | cons w ws ih =>
    unfold imageMemory
    cases k with
    | zero =>
      split
      · rename_i hw
        rw [Memory.read_of_above (imageMemory_above (by omega))]
        simpa using hw.symm
      · simp [Memory.read]
    | succ k =>
      have hk : base + (k + 1) = base + 1 + k := by omega
      have hne : ¬ base + 1 + k = base := by omega
      split
      · rw [hk, ih]
        simp
      · rw [hk]
        simp [Memory.read, hne, ih]

/-! ## The state's memory operations -/

theorem State.memRead_inside {s : State} {a : Nat} (h : a < s.launch.extent) :
    s.memRead a = .ok (s.mem.read a) := if_neg (Nat.not_le.mpr h)

theorem State.memRead_outside {s : State} {a : Nat} (h : s.launch.extent ≤ a) :
    s.memRead a = .error { reason := .outOfBounds, detail := some a } := if_pos h

/-- Everything a memory read can answer (20_memory.md R48). -/
theorem State.memRead_ok {s : State} {a : Nat} {w : Cell} :
    s.memRead a = .ok w ↔ a < s.launch.extent ∧ s.mem.read a = w := by
  unfold State.memRead
  split
  · simp only [reduceCtorEq, false_iff, not_and]; omega
  · simp only [Except.ok.injEq]; exact ⟨fun h => ⟨by omega, h⟩, fun h => h.2⟩

/-- Everything a memory write can answer (20_memory.md R49). -/
theorem State.memWrite_ok {s t : State} {a : Nat} {v : Word} :
    s.memWrite a v = .ok t ↔
      a < s.launch.extent ∧ t = { s with mem := s.mem.write a (zext16 v) } := by
  unfold State.memWrite
  split
  · simp only [reduceCtorEq, false_iff, not_and]; omega
  · simp only [Except.ok.injEq]; exact ⟨fun h => ⟨by omega, h.symm⟩, fun h => h.2.symm⟩

theorem State.memWrite_outside {s : State} {a : Nat} (h : s.launch.extent ≤ a) (v : Word) :
    s.memWrite a v = .error { reason := .outOfBounds, detail := some a } := if_pos h

/-- WriteMemory's store keeps the canonical form. -/
theorem State.memWrite_wf {s t : State} {a : Nat} {v : Word} (h : s.mem.wf = true)
    (hw : s.memWrite a v = .ok t) : t.mem.wf = true := by
  obtain ⟨-, rfl⟩ := State.memWrite_ok.mp hw
  exact Memory.write_wf _ _ h

/-- Placing words keeps the canonical form. -/
theorem State.place_wf {s : State} {a : Nat} {ws : List Cell} (h : s.mem.wf = true) :
    (s.place a ws).mem.wf = true := by
  induction ws generalizing s a with
  | nil => exact h
  | cons w ws ih =>
    unfold State.place
    apply ih
    split
    · exact Memory.write_wf _ _ h
    · exact h

/-- Placing words keeps the addresses inside the extent. -/
theorem State.place_inside {s : State} {a : Nat} {ws : List Cell}
    (h : ∀ c ∈ s.mem, c.1 < s.launch.extent) :
    (s.place a ws).launch = s.launch ∧ ∀ c ∈ (s.place a ws).mem, c.1 < s.launch.extent := by
  induction ws generalizing s a with
  | nil => exact ⟨rfl, h⟩
  | cons w ws ih =>
    unfold State.place
    split
    · rename_i ha
      refine ih (s := { s with mem := s.mem.write a w }) fun c hc => ?_
      rcases Memory.mem_write hc with rfl | hc
      · exact ha
      · exact h c hc
    · exact ih h

theorem State.withFetchWord_wf {s : State} (h : s.mem.wf = true) (nbits w : Nat) :
    (s.withFetchWord nbits w).mem.wf = true := State.place_wf h

theorem reset_mem_wf : State.reset.mem.wf = true := rfl

end Sys2Proof.Machine
end

