-- ==== Sys2Proof/Laws/State.lean ====
section
/-! SUPPORT. What each named update of a state leaves in each field, and the register laws: later
proofs rewrite with these and unfold no record update. -/

namespace Sys2Proof.Machine

variable (s : State)

/-! ## writeReg -/

@[simp] theorem State.writeReg_pc (r v) : (s.writeReg r v).pc = s.pc := rfl
@[simp] theorem State.writeReg_status (r v) : (s.writeReg r v).status = s.status := rfl
@[simp] theorem State.writeReg_stack (r v) : (s.writeReg r v).stack = s.stack := rfl
@[simp] theorem State.writeReg_mem (r v) : (s.writeReg r v).mem = s.mem := rfl
@[simp] theorem State.writeReg_out (r v) : (s.writeReg r v).out = s.out := rfl
@[simp] theorem State.writeReg_inpos (r v) : (s.writeReg r v).inpos = s.inpos := rfl
@[simp] theorem State.writeReg_launch (r v) : (s.writeReg r v).launch = s.launch := rfl
@[simp] theorem State.writeReg_memRead (r v a) : (s.writeReg r v).memRead a = s.memRead a := rfl

/-- A register write is read back, and changes no other register. -/
theorem State.reg_writeReg (r q : Reg) (v : Word) :
    (s.writeReg r v).reg q = if r = q then v else s.reg q := by
  simp [State.reg, State.writeReg, Vector.getElem_set, Fin.ext_iff]

@[simp] theorem State.reg_writeReg_same (r : Reg) (v : Word) : (s.writeReg r v).reg r = v := by
  simp [State.reg_writeReg]

theorem State.reg_writeReg_ne {r q : Reg} (h : q ≠ r) (v : Word) :
    (s.writeReg r v).reg q = s.reg q := by
  rw [State.reg_writeReg, if_neg (Ne.symm h)]

/-! ## outPort and consumeInput -/

@[simp] theorem State.outPort_x (v) : (s.outPort v).x = s.x := rfl
@[simp] theorem State.outPort_pc (v) : (s.outPort v).pc = s.pc := rfl
@[simp] theorem State.outPort_status (v) : (s.outPort v).status = s.status := rfl
@[simp] theorem State.outPort_stack (v) : (s.outPort v).stack = s.stack := rfl
@[simp] theorem State.outPort_mem (v) : (s.outPort v).mem = s.mem := rfl
@[simp] theorem State.outPort_out (v) : (s.outPort v).out = s.out ++ [v] := rfl
@[simp] theorem State.outPort_inpos (v) : (s.outPort v).inpos = s.inpos := rfl
@[simp] theorem State.outPort_launch (v) : (s.outPort v).launch = s.launch := rfl
@[simp] theorem State.outPort_memRead (v a) : (s.outPort v).memRead a = s.memRead a := rfl
@[simp] theorem State.outPort_reg (v r) : (s.outPort v).reg r = s.reg r := rfl

@[simp] theorem State.consumeInput_x : s.consumeInput.x = s.x := rfl
@[simp] theorem State.consumeInput_pc : s.consumeInput.pc = s.pc := rfl
@[simp] theorem State.consumeInput_status : s.consumeInput.status = s.status := rfl
@[simp] theorem State.consumeInput_stack : s.consumeInput.stack = s.stack := rfl
@[simp] theorem State.consumeInput_mem : s.consumeInput.mem = s.mem := rfl
@[simp] theorem State.consumeInput_out : s.consumeInput.out = s.out := rfl
@[simp] theorem State.consumeInput_inpos : s.consumeInput.inpos = s.inpos + 1 := rfl
@[simp] theorem State.consumeInput_launch : s.consumeInput.launch = s.launch := rfl
@[simp] theorem State.consumeInput_memRead (a) : s.consumeInput.memRead a = s.memRead a := rfl
@[simp] theorem State.consumeInput_reg (r) : s.consumeInput.reg r = s.reg r := rfl

/-! ## raise -/

@[simp] theorem State.raise_x (r i) : (s.raise r i).x = s.x := rfl
@[simp] theorem State.raise_pc (r i) : (s.raise r i).pc = s.pc := rfl
@[simp] theorem State.raise_stack (r i) : (s.raise r i).stack = s.stack := rfl
@[simp] theorem State.raise_mem (r i) : (s.raise r i).mem = s.mem := rfl
@[simp] theorem State.raise_out (r i) : (s.raise r i).out = s.out := rfl
@[simp] theorem State.raise_inpos (r i) : (s.raise r i).inpos = s.inpos := rfl
@[simp] theorem State.raise_launch (r i) : (s.raise r i).launch = s.launch := rfl
@[simp] theorem State.raise_memRead (r i a) : (s.raise r i).memRead a = s.memRead a := rfl
@[simp] theorem State.raise_reg (r i q) : (s.raise r i).reg q = s.reg q := rfl
@[simp] theorem State.raise_status (r i) :
    (s.raise r i).status =
      .faulted { reason := r.reason, pc := s.pc, detail := r.detail, instr := i } := rfl

/-! ## sequence: only the pc or the status changes -/

@[simp] theorem State.sequence_x (i n) : (s.sequence i n).x = s.x := by
  unfold State.sequence; split <;> rfl
@[simp] theorem State.sequence_stack (i n) : (s.sequence i n).stack = s.stack := by
  unfold State.sequence; split <;> rfl
@[simp] theorem State.sequence_mem (i n) : (s.sequence i n).mem = s.mem := by
  unfold State.sequence; split <;> rfl
@[simp] theorem State.sequence_out (i n) : (s.sequence i n).out = s.out := by
  unfold State.sequence; split <;> rfl
@[simp] theorem State.sequence_inpos (i n) : (s.sequence i n).inpos = s.inpos := by
  unfold State.sequence; split <;> rfl
@[simp] theorem State.sequence_launch (i n) : (s.sequence i n).launch = s.launch := by
  unfold State.sequence; split <;> rfl
@[simp] theorem State.sequence_memRead (i n a) : (s.sequence i n).memRead a = s.memRead a := by
  simp [State.memRead]
@[simp] theorem State.sequence_reg (i n r) : (s.sequence i n).reg r = s.reg r := by
  simp [State.reg]

/-- Inside the extent the sequencer moves the pc (40_execution_cycle.md R101). -/
theorem State.sequence_inside {n : Nat} (h : n < s.launch.extent) (i : Instr) :
    s.sequence i n = { s with pc := n } := if_neg (Nat.not_le.mpr h)

/-- Outside it faults and the pc stays (40_execution_cycle.md R101). -/
theorem State.sequence_outside {n : Nat} (h : s.launch.extent ≤ n) (i : Instr) :
    s.sequence i n = s.raise { reason := .outOfBounds, detail := some n } (some i) := if_pos h

/-- Everything the sequencer can do. -/
theorem State.sequence_cases (i : Instr) (n : Nat) :
    (n < s.launch.extent ∧ s.sequence i n = { s with pc := n }) ∨
    (s.launch.extent ≤ n ∧
      s.sequence i n = s.raise { reason := .outOfBounds, detail := some n } (some i)) := by
  rcases Nat.lt_or_ge n s.launch.extent with h | h
  · exact .inl ⟨h, s.sequence_inside h i⟩
  · exact .inr ⟨h, s.sequence_outside h i⟩

/-! ## val, fall and complete -/

@[simp] theorem State.val_lit (w : Word) : s.val (.lit w) = w := rfl
@[simp] theorem State.val_reg (r : Reg) : s.val (.reg r) = s.reg r := rfl

theorem State.fall_eq (i : Instr) : s.fall i = s.pc + 1 + i.arity := rfl

@[simp] theorem State.complete_error (i : Instr) (r : Raise) :
    s.complete i (.error r) = .next (s.raise r (some i)) := rfl
@[simp] theorem State.complete_halts (i : Instr) (t : State) :
    s.complete i (.ok (.halts t)) = .next { t with status := .halted } := rfl
@[simp] theorem State.complete_goes (i : Instr) (t : State) (n : Nat) :
    s.complete i (.ok (.goes t n)) = .next (t.sequence i n) := rfl

/-- The end of a step always answers a next state: an instruction never stops the model. -/
theorem State.complete_next (i : Instr) (e : Except Raise Effect) :
    ∃ t, s.complete i e = .next t := by
  rcases e with r | ⟨t, n⟩ | t
  · exact ⟨_, rfl⟩
  · exact ⟨_, rfl⟩
  · exact ⟨_, rfl⟩

end Sys2Proof.Machine
end

