-- ==== Sys2Proof/Laws/Ops.lean ====
section
/-! SUPPORT. What each shared operation can answer, once: narrowing, range checks, the stack and the
input port. -/

namespace Sys2Proof

@[simp] theorem narrow_toNat (n : Nat) : (narrow n).toNat = n % 32768 := by
  simp [narrow, BitVec.toNat_ofNat]

theorem Word.toNat_le (w : Word) : w.toNat ≤ 32767 := by
  have := w.isLt
  omega

@[simp] theorem zext16_toNat (w : Word) : (zext16 w).toNat = w.toNat := by
  have := w.isLt
  rw [zext16, BitVec.toNat_ofNat]
  omega

@[simp] theorem narrow_word (w : Word) : narrow w.toNat = w := by
  apply BitVec.eq_of_toNat_eq
  have := w.isLt
  rw [narrow_toNat]
  omega

end Sys2Proof

namespace Sys2Proof.Machine

/-- A value at most 32767 enters a register unchanged. -/
theorem asWord_small {v : Nat} (h : v ≤ 32767) : asWord v = .ok (narrow v) := if_pos h

/-- A larger one raises WordOutOfRange with itself as detail. -/
theorem asWord_large {v : Nat} (h : 32767 < v) :
    asWord v = .error { reason := .wordOutOfRange, detail := some v } := if_neg (Nat.not_le.mpr h)

@[simp] theorem asWord_zext16 (w : Word) : asWord (zext16 w).toNat = .ok w := by
  rw [zext16_toNat, asWord_small w.toNat_le, narrow_word]

variable (s : State)

theorem State.stackPush_room {s : State} (h : s.stackFull = false) (v : Nat) :
    s.stackPush v = .ok { s with stack := s.stack ++ [v] } := by
  simp [State.stackPush, h]

theorem State.stackPush_full {s : State} (h : s.stackFull = true) (v : Nat) :
    s.stackPush v = .error { reason := .stackOverflow, detail := some v } := by
  simp [State.stackPush, h]

/-- The unbounded stack of this hardware is never full (00_scope.md R10). -/
theorem State.stackFull_unbounded {s : State} (h : s.launch.stackDepth = none) :
    s.stackFull = false := by
  simp [State.stackFull, h]

/-- A stack of depth d is full exactly when it holds at least d entries. -/
theorem State.stackFull_finite {s : State} {d : Nat} (h : s.launch.stackDepth = some d) :
    s.stackFull = decide (d ≤ s.stack.length) := by
  simp [State.stackFull, h]

theorem State.stackPop_nil {s : State} (h : s.stack = []) :
    s.stackPop = .error { reason := .stackUnderflow, detail := none } := by
  simp [State.stackPop, h]

theorem State.stackPop_append {s : State} {st : List Nat} {v : Nat} (h : s.stack = st ++ [v]) :
    s.stackPop = .ok (v, { s with stack := st }) := by
  simp [State.stackPop, h]

/-- A stack is empty or has a tail entry. -/
theorem State.stack_cases : s.stack = [] ∨ ∃ st v, s.stack = st ++ [v] := by
  rcases List.eq_nil_or_concat s.stack with h | ⟨st, v, h⟩
  · exact .inl h
  · exact .inr ⟨st, v, by simpa using h⟩

theorem State.inPort_some {s : State} {c : Nat} :
    s.inPort = some c ↔ ∃ h : s.inpos < s.launch.input.length, s.launch.input[s.inpos] = c := by
  simp [State.inPort, List.getElem?_eq_some_iff]

theorem State.inPort_none {s : State} :
    s.inPort = none ↔ s.launch.input.length ≤ s.inpos := by
  simp [State.inPort]

end Sys2Proof.Machine
end

