-- ==== Sys2Proof/Laws/Decode.lean ====
section
/-! SUPPORT. The operand resolver and its inverse, and what the decoder's fallthrough address is. -/

namespace Sys2Proof

theorem resolve_literal {raw : Cell} (h : raw.toNat ≤ 32767) :
    resolve raw = .ok (.lit (narrow raw.toNat)) := if_pos h

theorem resolve_register {raw : Cell} (h : 32768 ≤ raw.toNat) (h' : raw.toNat ≤ 32775) :
    resolve raw = .ok (.reg (Fin.ofNat 8 (raw.toNat - 32768))) := by
  unfold resolve
  rw [if_neg (by omega), if_pos h']

theorem resolve_invalid {raw : Cell} (h : 32775 < raw.toNat) :
    resolve raw = .error { reason := .invalidOperand, detail := some raw.toNat } := by
  unfold resolve
  rw [if_neg (by omega), if_neg (by omega)]

theorem encodeOperand_lit_toNat (w : Word) : (encodeOperand (.lit w)).toNat = w.toNat :=
  zext16_toNat w

theorem encodeOperand_reg_toNat (r : Reg) : (encodeOperand (.reg r)).toNat = 32768 + r.val := by
  have := r.isLt
  simp only [encodeOperand, BitVec.toNat_ofNat]
  omega

/-- Resolving an encoded operand gives it back. -/
@[simp] theorem resolve_encodeOperand (op : Operand) : resolve (encodeOperand op) = .ok op := by
  cases op with
  | lit w =>
    rw [resolve_literal (by rw [encodeOperand_lit_toNat]; exact w.toNat_le),
      encodeOperand_lit_toNat, narrow_word]
  | reg r =>
    have := r.isLt
    have h := encodeOperand_reg_toNat r
    have hr : Fin.ofNat 8 (32768 + r.val - 32768) = r := by
      rw [Nat.add_sub_cancel_left]
      exact Fin.ofNat_val_eq_self r
    rw [resolve_register (by omega) (by omega), h, hr]

/-- A raw word that resolves is the encoding of what it resolves to. -/
theorem encodeOperand_of_resolve {raw : Cell} {op : Operand} (h : resolve raw = .ok op) :
    encodeOperand op = raw := by
  apply BitVec.eq_of_toNat_eq
  unfold resolve at h
  split at h
  · cases h
    rw [encodeOperand_lit_toNat, narrow_toNat]
    omega
  · split at h
    · cases h
      rw [encodeOperand_reg_toNat]
      simp only [Fin.ofNat]
      omega
    · cases h

theorem valueAt_ok {fetch : Nat → Except Raise Cell} {a : Nat} {op : Operand} :
    valueAt fetch a = .ok op ↔ fetch a = .ok (encodeOperand op) := by
  unfold valueAt
  cases hf : fetch a with
  | error r => simp [bind, Except.bind]
  | ok raw =>
    simp only [bind, Except.bind, Except.ok.injEq]
    constructor
    · exact fun h => (encodeOperand_of_resolve h).symm
    · rintro rfl
      exact resolve_encodeOperand op

theorem regAt_ok {fetch : Nat → Except Raise Cell} {a : Nat} {r : Reg} :
    regAt fetch a = .ok r ↔ fetch a = .ok (encodeOperand (.reg r)) := by
  unfold regAt
  cases hf : fetch a with
  | error r => simp [bind, Except.bind]
  | ok raw =>
    simp only [bind, Except.bind, Except.ok.injEq]
    constructor
    · intro h
      cases hr : resolve raw with
      | error e => simp [hr] at h
      | ok op =>
        cases op with
        | lit w => simp [hr, expectReg] at h
        | reg q =>
          simp only [hr, expectReg, Except.ok.injEq] at h
          subst h
          exact (encodeOperand_of_resolve hr).symm
    · rintro rfl
      simp [expectReg]

/-- Split a successful bind into its two parts. -/
theorem bind_ok {α β : Type} {x : Except Raise α} {f : α → Except Raise β} {b : β} :
    (x >>= f) = .ok b ↔ ∃ a, x = .ok a ∧ f a = .ok b := by
  cases x <;> simp [bind, Except.bind]

/-- Split a failed bind into its two places. -/
theorem bind_error {α β : Type} {x : Except Raise α} {f : α → Except Raise β} {r : Raise} :
    (x >>= f) = .error r ↔ x = .error r ∨ ∃ a, x = .ok a ∧ f a = .error r := by
  cases x <;> simp [bind, Except.bind]

theorem decoded_ok {addr n : Nat} {i j : Instr} :
    decoded addr i = .ok (j, n) ↔ j = i ∧ n = addr + 1 + i.arity := by
  simp only [decoded, Except.ok.injEq, Prod.mk.injEq]
  exact ⟨fun ⟨a, b⟩ => ⟨a.symm, b.symm⟩, fun ⟨a, b⟩ => ⟨a.symm, b.symm⟩⟩

/-- The decoder's second answer is the fallthrough address (30_encoding.md R80). -/
theorem decode_fall {fetch : Nat → Except Raise Cell} {addr n : Nat} {i : Instr}
    (h : decode fetch addr = .ok (i, n)) : n = addr + 1 + i.arity := by
  unfold decode at h
  obtain ⟨w0, -, h⟩ := bind_ok.mp h
  revert h
  split <;> simp only [bind_ok, decoded_ok, reduceCtorEq, false_imp_iff] <;>
    first
    | (rintro ⟨rfl, rfl⟩; rfl)
    | (rintro ⟨_, -, rfl, rfl⟩; rfl)
    | (rintro ⟨_, -, _, -, rfl, rfl⟩; rfl)
    | (rintro ⟨_, -, _, -, _, -, rfl, rfl⟩; rfl)

/-- The opcode fetch fails first (30_encoding.md R81). -/
theorem decode_fetch_error {fetch : Nat → Except Raise Cell} {addr : Nat} {r : Raise}
    (h : fetch addr = .error r) : decode fetch addr = .error r := by
  simp [decode, h, bind, Except.bind]

end Sys2Proof
end

