-- ==== Sys2Proof/Laws/Exec.lean ====
section
/-! SUPPORT. What each instruction can do, once: one lemma per meaning, in terms of the shared
operations, and what a step can do. Later proofs cite these and unfold no meaning. -/

namespace Sys2Proof.Machine

variable (s : State)

theorem exec_halt : exec .halt s = .next { s with status := .halted } := rfl

theorem exec_noOp : exec .noOp s = .next (s.sequence .noOp (s.pc + 1)) := rfl

theorem exec_set (a b) :
    exec (.set a b) s = .next ((s.writeReg a (s.val b)).sequence (.set a b) (s.pc + 3)) := rfl

theorem exec_equal (a b c) :
    exec (.equal a b c) s = .next ((s.writeReg a (truthWord (isEqual (s.val b) (s.val c)))).sequence
      (.equal a b c) (s.pc + 4)) := rfl

theorem exec_greaterThan (a b c) :
    exec (.greaterThan a b c) s =
      .next ((s.writeReg a (truthWord (isGreater (s.val b) (s.val c)))).sequence
        (.greaterThan a b c) (s.pc + 4)) := rfl

theorem exec_add (a b c) :
    exec (.add a b c) s = .next ((s.writeReg a (aluAdd (s.val b) (s.val c))).sequence
      (.add a b c) (s.pc + 4)) := rfl

theorem exec_multiply (a b c) :
    exec (.multiply a b c) s = .next ((s.writeReg a (aluMultiply (s.val b) (s.val c))).sequence
      (.multiply a b c) (s.pc + 4)) := rfl

theorem exec_and (a b c) :
    exec (.and a b c) s = .next ((s.writeReg a (aluAnd (s.val b) (s.val c))).sequence
      (.and a b c) (s.pc + 4)) := rfl

theorem exec_or (a b c) :
    exec (.or a b c) s = .next ((s.writeReg a (aluOr (s.val b) (s.val c))).sequence
      (.or a b c) (s.pc + 4)) := rfl

theorem exec_not (a b) :
    exec (.not a b) s = .next ((s.writeReg a (aluNot (s.val b))).sequence
      (.not a b) (s.pc + 3)) := rfl

theorem exec_out (a) :
    exec (.out a) s = .next ((s.outPort (s.val a)).sequence (.out a) (s.pc + 2)) := rfl

theorem exec_jump (a) :
    exec (.jump a) s = .next (s.sequence (.jump a) (s.val a).toNat) := rfl

theorem exec_jumpTrue (a b) :
    exec (.jumpTrue a b) s = .next (s.sequence (.jumpTrue a b)
      (if nonZero (s.val a) then (s.val b).toNat else s.pc + 3)) := rfl

theorem exec_jumpFalse (a b) :
    exec (.jumpFalse a b) s = .next (s.sequence (.jumpFalse a b)
      (if nonZero (s.val a) then s.pc + 3 else (s.val b).toNat)) := rfl

/-- Everything Modulo can do (45_alu.md R152). -/
theorem exec_modulo_cases (a b c) :
    ((s.val c).toNat = 0 ∧ exec (.modulo a b c) s =
      .next (s.raise { reason := .divideByZero, detail := none } (some (.modulo a b c)))) ∨
    ((s.val c).toNat ≠ 0 ∧ exec (.modulo a b c) s =
      .next ((s.writeReg a (narrow ((s.val b).toNat % (s.val c).toNat))).sequence
        (.modulo a b c) (s.pc + 4))) := by
  simp only [exec, execModulo, aluModulo]
  by_cases h : (s.val c).toNat = 0
  · exact .inl ⟨h, by rw [if_pos h]; rfl⟩
  · exact .inr ⟨h, by rw [if_neg h]; rfl⟩

/-- Everything Push can do (42_register_and_stack.md R123). -/
theorem exec_push_cases (a) :
    (s.stackFull = true ∧ exec (.push a) s = .next (s.raise
      { reason := .stackOverflow, detail := some (s.val a).toNat } (some (.push a)))) ∨
    (s.stackFull = false ∧ exec (.push a) s =
      .next ({ s with stack := s.stack ++ [(s.val a).toNat] }.sequence (.push a) (s.pc + 2))) := by
  cases h : s.stackFull
  · exact .inr ⟨rfl, by simp only [exec, execPush, State.stackPush_room h]; rfl⟩
  · exact .inl ⟨rfl, by simp only [exec, execPush, State.stackPush_full h]; rfl⟩

/-- Everything Call can do (44_branch.md R141). -/
theorem exec_call_cases (a) :
    (s.stackFull = true ∧ exec (.call a) s = .next (s.raise
      { reason := .stackOverflow, detail := some (s.pc + 2) } (some (.call a)))) ∨
    (s.stackFull = false ∧ exec (.call a) s =
      .next ({ s with stack := s.stack ++ [s.pc + 2] }.sequence (.call a) (s.val a).toNat)) := by
  cases h : s.stackFull
  · exact .inr ⟨rfl, by simp only [exec, execCall, State.stackPush_room h]; rfl⟩
  · exact .inl ⟨rfl, by simp only [exec, execCall, State.stackPush_full h]; rfl⟩

/-- Everything Pop can do (42_register_and_stack.md R125). -/
theorem exec_pop_cases (a) :
    (s.stack = [] ∧ exec (.pop a) s =
      .next (s.raise { reason := .stackUnderflow, detail := none } (some (.pop a)))) ∨
    (∃ st v, s.stack = st ++ [v] ∧ 32767 < v ∧ exec (.pop a) s =
      .next (s.raise { reason := .wordOutOfRange, detail := some v } (some (.pop a)))) ∨
    (∃ st v, s.stack = st ++ [v] ∧ v ≤ 32767 ∧ exec (.pop a) s =
      .next (({ s with stack := st }.writeReg a (narrow v)).sequence (.pop a) (s.pc + 2))) := by
  rcases s.stack_cases with h | ⟨st, v, h⟩
  · exact .inl ⟨h, by simp only [exec, execPop, State.stackPop_nil h]; rfl⟩
  · rcases Nat.lt_or_ge 32767 v with hv | hv
    · refine .inr (.inl ⟨st, v, h, hv, ?_⟩)
      simp only [exec, execPop, State.stackPop_append h, bind, Except.bind, asWord_large hv]
      rfl
    · refine .inr (.inr ⟨st, v, h, hv, ?_⟩)
      simp only [exec, execPop, State.stackPop_append h, bind, Except.bind, asWord_small hv]
      rfl

/-- Everything Return can do (44_branch.md R143). -/
theorem exec_ret_cases :
    (s.stack = [] ∧ exec .ret s = .next { s with status := .halted }) ∨
    (∃ st v, s.stack = st ++ [v] ∧
      exec .ret s = .next ({ s with stack := st }.sequence .ret v)) := by
  rcases s.stack_cases with h | ⟨st, v, h⟩
  · exact .inl ⟨h, by simp [exec, execRet, h]⟩
  · exact .inr ⟨st, v, h, by
      simp [exec, execRet, h, State.stackPop_append h, bind, Except.bind, pure, Except.pure]⟩

/-- Everything ReadMemory can do (46_memory_access.md R165). -/
theorem exec_readMemory_cases (a b) :
    (s.launch.extent ≤ (s.val b).toNat ∧ exec (.readMemory a b) s = .next (s.raise
      { reason := .outOfBounds, detail := some (s.val b).toNat } (some (.readMemory a b)))) ∨
    ((s.val b).toNat < s.launch.extent ∧ 32767 < (s.mem.read (s.val b).toNat).toNat ∧
      exec (.readMemory a b) s = .next (s.raise
        { reason := .wordOutOfRange, detail := some (s.mem.read (s.val b).toNat).toNat }
        (some (.readMemory a b)))) ∨
    ((s.val b).toNat < s.launch.extent ∧ (s.mem.read (s.val b).toNat).toNat ≤ 32767 ∧
      exec (.readMemory a b) s =
        .next ((s.writeReg a (narrow (s.mem.read (s.val b).toNat).toNat)).sequence
          (.readMemory a b) (s.pc + 3))) := by
  simp only [exec, execReadMemory, State.address]
  rcases Nat.lt_or_ge (s.val b).toNat s.launch.extent with h | h
  · rcases Nat.lt_or_ge 32767 (s.mem.read (s.val b).toNat).toNat with hv | hv
    · refine .inr (.inl ⟨h, hv, ?_⟩)
      simp only [State.memRead_inside h, bind, Except.bind, asWord_large hv]
      rfl
    · refine .inr (.inr ⟨h, hv, ?_⟩)
      simp only [State.memRead_inside h, bind, Except.bind, asWord_small hv]
      rfl
  · exact .inl ⟨h, by simp only [State.memRead_outside h]; rfl⟩

/-- Everything WriteMemory can do (46_memory_access.md R166). -/
theorem exec_writeMemory_cases (a b) :
    (s.launch.extent ≤ (s.val a).toNat ∧ exec (.writeMemory a b) s = .next (s.raise
      { reason := .outOfBounds, detail := some (s.val a).toNat } (some (.writeMemory a b)))) ∨
    ((s.val a).toNat < s.launch.extent ∧ exec (.writeMemory a b) s =
      .next ({ s with mem := s.mem.write (s.val a).toNat (zext16 (s.val b)) }.sequence
        (.writeMemory a b) (s.pc + 3))) := by
  simp only [exec, execWriteMemory, State.address]
  rcases Nat.lt_or_ge (s.val a).toNat s.launch.extent with h | h
  · exact .inr ⟨h, by simp only [State.memWrite_ok.mpr ⟨h, rfl⟩]; rfl⟩
  · exact .inl ⟨h, by simp only [State.memWrite_outside h]; rfl⟩

/-- Everything In can do (47_io.md R172). -/
theorem exec_inp_cases (a) :
    (s.inPort = none ∧ exec (.inp a) s =
      .next (s.raise { reason := .endOfInput, detail := none } (some (.inp a)))) ∨
    (∃ c, s.inPort = some c ∧ 32767 < c ∧ exec (.inp a) s =
      .next (s.raise { reason := .wordOutOfRange, detail := some c } (some (.inp a)))) ∨
    (∃ c, s.inPort = some c ∧ c ≤ 32767 ∧ exec (.inp a) s =
      .next ((s.consumeInput.writeReg a (narrow c)).sequence (.inp a) (s.pc + 2))) := by
  simp only [exec, execInp]
  cases h : s.inPort with
  | none => exact .inl ⟨rfl, rfl⟩
  | some c =>
    rcases Nat.lt_or_ge 32767 c with hv | hv
    · exact .inr (.inl ⟨c, rfl, hv, by simp only [asWord_large hv]; rfl⟩)
    · exact .inr (.inr ⟨c, rfl, hv, by simp only [asWord_small hv]; rfl⟩)

/-! ## Every instruction at once -/

/-- The faults an instruction's effect phase can raise, with what causes each
(60_exceptions.md R190). -/
inductive FaultOf (s : State) : Instr → Raise → Prop where
  | pushFull (a) (h : s.stackFull = true) :
      FaultOf s (.push a) { reason := .stackOverflow, detail := some (s.val a).toNat }
  | callFull (a) (h : s.stackFull = true) :
      FaultOf s (.call a) { reason := .stackOverflow, detail := some (s.pc + 2) }
  | popEmpty (a) (h : s.stack = []) :
      FaultOf s (.pop a) { reason := .stackUnderflow, detail := none }
  | popRange (a st v) (h : s.stack = st ++ [v]) (hv : 32767 < v) :
      FaultOf s (.pop a) { reason := .wordOutOfRange, detail := some v }
  | moduloZero (a b c) (h : (s.val c).toNat = 0) :
      FaultOf s (.modulo a b c) { reason := .divideByZero, detail := none }
  | readOutside (a b) (h : s.launch.extent ≤ (s.val b).toNat) :
      FaultOf s (.readMemory a b) { reason := .outOfBounds, detail := some (s.val b).toNat }
  | readRange (a b) (h : (s.val b).toNat < s.launch.extent)
      (hv : 32767 < (s.mem.read (s.val b).toNat).toNat) :
      FaultOf s (.readMemory a b)
        { reason := .wordOutOfRange, detail := some (s.mem.read (s.val b).toNat).toNat }
  | writeOutside (a b) (h : s.launch.extent ≤ (s.val a).toNat) :
      FaultOf s (.writeMemory a b) { reason := .outOfBounds, detail := some (s.val a).toNat }
  | inputEnd (a) (h : s.inPort = none) :
      FaultOf s (.inp a) { reason := .endOfInput, detail := none }
  | inputRange (a c) (h : s.inPort = some c) (hv : 32767 < c) :
      FaultOf s (.inp a) { reason := .wordOutOfRange, detail := some c }

/-- The Word written by the instructions that compute one from their operands alone and never fault. -/
def State.computed (s : State) : Instr → Option Word
  | .set _ b => some (s.val b)
  | .equal _ b c => some (truthWord (isEqual (s.val b) (s.val c)))
  | .greaterThan _ b c => some (truthWord (isGreater (s.val b) (s.val c)))
  | .add _ b c => some (aluAdd (s.val b) (s.val c))
  | .multiply _ b c => some (aluMultiply (s.val b) (s.val c))
  | .and _ b c => some (aluAnd (s.val b) (s.val c))
  | .or _ b c => some (aluOr (s.val b) (s.val c))
  | .not _ b => some (aluNot (s.val b))
  | _ => none

/-- The effects an instruction can have when it neither faults nor halts: the state before the
sequencer and the next pc it is handed (40_execution_cycle.md R100). -/
inductive EffectOf (s : State) : Instr → State → Nat → Prop where
  | noOp : EffectOf s .noOp s (s.pc + 1)
  | jump (a) : EffectOf s (.jump a) s (s.val a).toNat
  | jumpTrue (a b) : EffectOf s (.jumpTrue a b) s
      (if nonZero (s.val a) then (s.val b).toNat else s.pc + 3)
  | jumpFalse (a b) : EffectOf s (.jumpFalse a b) s
      (if nonZero (s.val a) then s.pc + 3 else (s.val b).toNat)
  | write (i a v) (hd : i.operands.head? = some (.reg a)) (hv : s.computed i = some v) :
      EffectOf s i (s.writeReg a v) (s.pc + 1 + i.arity)
  | modulo (a b c) (h : (s.val c).toNat ≠ 0) :
      EffectOf s (.modulo a b c)
        (s.writeReg a (narrow ((s.val b).toNat % (s.val c).toNat))) (s.pc + 4)
  | read (a b) (h : (s.val b).toNat < s.launch.extent)
      (hv : (s.mem.read (s.val b).toNat).toNat ≤ 32767) :
      EffectOf s (.readMemory a b)
        (s.writeReg a (narrow (s.mem.read (s.val b).toNat).toNat)) (s.pc + 3)
  | push (a) (h : s.stackFull = false) :
      EffectOf s (.push a) { s with stack := s.stack ++ [(s.val a).toNat] } (s.pc + 2)
  | call (a) (h : s.stackFull = false) :
      EffectOf s (.call a) { s with stack := s.stack ++ [s.pc + 2] } (s.val a).toNat
  | pop (a st v) (h : s.stack = st ++ [v]) (hv : v ≤ 32767) :
      EffectOf s (.pop a) ({ s with stack := st }.writeReg a (narrow v)) (s.pc + 2)
  | ret (st v) (h : s.stack = st ++ [v]) : EffectOf s .ret { s with stack := st } v
  | store (a b) (h : (s.val a).toNat < s.launch.extent) :
      EffectOf s (.writeMemory a b)
        { s with mem := s.mem.write (s.val a).toNat (zext16 (s.val b)) } (s.pc + 3)
  | out (a) : EffectOf s (.out a) (s.outPort (s.val a)) (s.pc + 2)
  | inp (a c) (h : s.inPort = some c) (hv : c ≤ 32767) :
      EffectOf s (.inp a) (s.consumeInput.writeReg a (narrow c)) (s.pc + 2)

/-- Everything executing an instruction can do: it raises one of its faults, it halts, or it has its
effect and goes through the sequencer. -/
theorem exec_cases (i : Instr) (s : State) :
    (∃ r, FaultOf s i r ∧ exec i s = .next (s.raise r (some i))) ∨
    ((i = .halt ∨ i = .ret ∧ s.stack = []) ∧ exec i s = .next { s with status := .halted }) ∨
    (∃ u n, EffectOf s i u n ∧ exec i s = .next (u.sequence i n)) := by
  cases i with
  | halt => exact .inr (.inl ⟨.inl rfl, rfl⟩)
  | noOp => exact .inr (.inr ⟨_, _, .noOp, rfl⟩)
  | set a b => exact .inr (.inr ⟨_, _, .write _ _ _ rfl rfl, exec_set s a b⟩)
  | equal a b c => exact .inr (.inr ⟨_, _, .write _ _ _ rfl rfl, exec_equal s a b c⟩)
  | greaterThan a b c =>
    exact .inr (.inr ⟨_, _, .write _ _ _ rfl rfl, exec_greaterThan s a b c⟩)
  | add a b c => exact .inr (.inr ⟨_, _, .write _ _ _ rfl rfl, exec_add s a b c⟩)
  | multiply a b c => exact .inr (.inr ⟨_, _, .write _ _ _ rfl rfl, exec_multiply s a b c⟩)
  | and a b c => exact .inr (.inr ⟨_, _, .write _ _ _ rfl rfl, exec_and s a b c⟩)
  | or a b c => exact .inr (.inr ⟨_, _, .write _ _ _ rfl rfl, exec_or s a b c⟩)
  | not a b => exact .inr (.inr ⟨_, _, .write _ _ _ rfl rfl, exec_not s a b⟩)
  | out a => exact .inr (.inr ⟨_, _, .out a, exec_out s a⟩)
  | jump a => exact .inr (.inr ⟨_, _, .jump a, exec_jump s a⟩)
  | jumpTrue a b => exact .inr (.inr ⟨_, _, .jumpTrue a b, exec_jumpTrue s a b⟩)
  | jumpFalse a b => exact .inr (.inr ⟨_, _, .jumpFalse a b, exec_jumpFalse s a b⟩)
  | modulo a b c =>
    rcases exec_modulo_cases s a b c with ⟨h, e⟩ | ⟨h, e⟩
    · exact .inl ⟨_, .moduloZero a b c h, e⟩
    · exact .inr (.inr ⟨_, _, .modulo a b c h, e⟩)
  | push a =>
    rcases exec_push_cases s a with ⟨h, e⟩ | ⟨h, e⟩
    · exact .inl ⟨_, .pushFull a h, e⟩
    · exact .inr (.inr ⟨_, _, .push a h, e⟩)
  | call a =>
    rcases exec_call_cases s a with ⟨h, e⟩ | ⟨h, e⟩
    · exact .inl ⟨_, .callFull a h, e⟩
    · exact .inr (.inr ⟨_, _, .call a h, e⟩)
  | pop a =>
    rcases exec_pop_cases s a with ⟨h, e⟩ | ⟨st, v, h, hv, e⟩ | ⟨st, v, h, hv, e⟩
    · exact .inl ⟨_, .popEmpty a h, e⟩
    · exact .inl ⟨_, .popRange a st v h hv, e⟩
    · exact .inr (.inr ⟨_, _, .pop a st v h hv, e⟩)
  | ret =>
    rcases exec_ret_cases s with ⟨h, e⟩ | ⟨st, v, h, e⟩
    · exact .inr (.inl ⟨.inr ⟨rfl, h⟩, e⟩)
    · exact .inr (.inr ⟨_, _, .ret st v h, e⟩)
  | readMemory a b =>
    rcases exec_readMemory_cases s a b with ⟨h, e⟩ | ⟨h, hv, e⟩ | ⟨h, hv, e⟩
    · exact .inl ⟨_, .readOutside a b h, e⟩
    · exact .inl ⟨_, .readRange a b h hv, e⟩
    · exact .inr (.inr ⟨_, _, .read a b h hv, e⟩)
  | writeMemory a b =>
    rcases exec_writeMemory_cases s a b with ⟨h, e⟩ | ⟨h, e⟩
    · exact .inl ⟨_, .writeOutside a b h, e⟩
    · exact .inr (.inr ⟨_, _, .store a b h, e⟩)
  | inp a =>
    rcases exec_inp_cases s a with ⟨h, e⟩ | ⟨c, h, hv, e⟩ | ⟨c, h, hv, e⟩
    · exact .inl ⟨_, .inputEnd a h, e⟩
    · exact .inl ⟨_, .inputRange a c h hv, e⟩
    · exact .inr (.inr ⟨_, _, .inp a c h hv, e⟩)

/-- The converse for effects: an instruction that can have an effect has it. -/
theorem exec_of_effect {s u : State} {i : Instr} {n : Nat} (h : EffectOf s i u n) :
    exec i s = .next (u.sequence i n) := by
  cases h with
  | write i a v hd hv =>
    cases i <;> simp only [State.computed, reduceCtorEq, Option.some.injEq] at hv <;>
      subst hv <;>
      simp only [Instr.operands, List.head?_cons, Option.some.injEq, Operand.reg.injEq] at hd <;>
      subst hd <;> rfl
  | modulo a b c h =>
    rcases exec_modulo_cases s a b c with ⟨h', -⟩ | ⟨-, e⟩
    · exact absurd h' h
    · exact e
  | read a b h hv =>
    rcases exec_readMemory_cases s a b with ⟨h', -⟩ | ⟨-, h', -⟩ | ⟨-, -, e⟩
    · omega
    · omega
    · exact e
  | push a h =>
    rcases exec_push_cases s a with ⟨h', -⟩ | ⟨-, e⟩
    · rw [h] at h'; cases h'
    · exact e
  | call a h =>
    rcases exec_call_cases s a with ⟨h', -⟩ | ⟨-, e⟩
    · rw [h] at h'; cases h'
    · exact e
  | pop a st v h hv =>
    simp only [exec, execPop, State.stackPop_append h, bind, Except.bind, asWord_small hv]
    rfl
  | ret st v h =>
    simp [exec, execRet, h, State.stackPop_append h, bind, Except.bind, pure, Except.pure]
  | store a b h =>
    rcases exec_writeMemory_cases s a b with ⟨h', -⟩ | ⟨-, e⟩
    · omega
    · exact e
  | inp a c h hv =>
    simp only [exec, execInp, h, asWord_small hv]
    rfl
  | noOp => rfl
  | jump a => rfl
  | jumpTrue a b => rfl
  | jumpFalse a b => rfl
  | out a => rfl

/-- The converse for faults: an instruction whose fault's cause holds raises it. -/
theorem exec_of_fault {s : State} {i : Instr} {r : Raise} (h : FaultOf s i r) :
    exec i s = .next (s.raise r (some i)) := by
  cases h with
  | pushFull a h =>
    rcases exec_push_cases s a with ⟨-, e⟩ | ⟨h', -⟩
    · exact e
    · rw [h] at h'; cases h'
  | callFull a h =>
    rcases exec_call_cases s a with ⟨-, e⟩ | ⟨h', -⟩
    · exact e
    · rw [h] at h'; cases h'
  | popEmpty a h => simp only [exec, execPop, State.stackPop_nil h]; rfl
  | popRange a st v h hv =>
    simp only [exec, execPop, State.stackPop_append h, bind, Except.bind, asWord_large hv]
    rfl
  | moduloZero a b c h =>
    rcases exec_modulo_cases s a b c with ⟨-, e⟩ | ⟨h', -⟩
    · exact e
    · exact absurd h h'
  | readOutside a b h =>
    rcases exec_readMemory_cases s a b with ⟨-, e⟩ | ⟨h', -⟩ | ⟨h', -⟩
    · exact e
    · omega
    · omega
  | readRange a b h hv =>
    rcases exec_readMemory_cases s a b with ⟨h', -⟩ | ⟨-, -, e⟩ | ⟨-, h', -⟩
    · omega
    · exact e
    · omega
  | writeOutside a b h =>
    rcases exec_writeMemory_cases s a b with ⟨-, e⟩ | ⟨h', -⟩
    · exact e
    · omega
  | inputEnd a h => simp only [exec, execInp, h]; rfl
  | inputRange a c h hv => simp only [exec, execInp, h, asWord_large hv]; rfl

/-- What a next state of an instruction is: `exec_cases` read from the answer. -/
theorem exec_next_cases {s t : State} {i : Instr} (h : exec i s = .next t) :
    (∃ r, FaultOf s i r ∧ t = s.raise r (some i)) ∨
    ((i = .halt ∨ i = .ret ∧ s.stack = []) ∧ t = { s with status := .halted }) ∨
    (∃ u n, EffectOf s i u n ∧ t = u.sequence i n) := by
  rcases exec_cases i s with ⟨r, hr, e⟩ | ⟨hr, e⟩ | ⟨u, n, hr, e⟩ <;> rw [e] at h <;>
    simp only [Host.Outcome.next.injEq] at h
  · exact .inl ⟨r, hr, h.symm⟩
  · exact .inr (.inl ⟨hr, h.symm⟩)
  · exact .inr (.inr ⟨u, n, hr, h.symm⟩)

/-- No effect touches the pc, the status or the launch parameters before the sequencer. -/
theorem EffectOf.keeps {s u : State} {i : Instr} {n : Nat} (h : EffectOf s i u n) :
    u.pc = s.pc ∧ u.status = s.status ∧ u.launch = s.launch := by
  cases h <;> exact ⟨rfl, rfl, rfl⟩

/-! ## A step -/

/-- What a step of a running core does, by its decode phase. -/
theorem step_cases {t : State} (h : step s = .next t) :
    s.status = .running ∧
      ((∃ i n, s.fetch = .ok (i, n) ∧ exec i s = .next t) ∨
       (∃ r, s.fetch = .error r ∧ t = s.raise r none)) := by
  unfold step at h
  split at h
  · rename_i hs
    refine ⟨hs, ?_⟩
    split at h
    · exact .inl ⟨_, _, ‹_›, h⟩
    · rename_i r hr
      simp only [Host.Outcome.next.injEq] at h
      exact .inr ⟨r, hr, h.symm⟩
  · cases h
  · cases h

theorem step_of_fetch {s : State} {i : Instr} {n : Nat} (hs : s.status = .running)
    (h : s.fetch = .ok (i, n)) : step s = exec i s := by
  simp [step, hs, h]

theorem step_of_decode_fault {s : State} {r : Raise} (hs : s.status = .running)
    (h : s.fetch = .error r) : step s = .next (s.raise r none) := by
  simp [step, hs, h]

end Sys2Proof.Machine
end

