-- ==== Sys2Proof/Laws/PerInstr.lean ====
section
/-! SUPPORT. Statements about every instruction as syntax, one lemma per constructor. -/

/-! An instruction's encoding is its opcode word and its operand words: 1 + arity words, 1 to 4 of
them, and the opcode word selects the arity (30_encoding.md R70, R82). -/
namespace Sys2Proof.Laws.EncodeLength

/-- The encoding has 1 + arity words, at most 4, and its opcode word names as many operand kinds. -/
def Statement (i : Instr) : Prop :=
  (encode i).length = 1 + i.arity ∧ (encode i).length ≤ 4 ∧
    (operandKinds i.opcode).map List.length = some i.arity

theorem halt : Statement .halt := ⟨rfl, by decide, rfl⟩
theorem set (a : Reg) (b : Operand) : Statement (.set a b) := ⟨rfl, by simp [encode, Instr.operands], rfl⟩
theorem push (a : Operand) : Statement (.push a) := ⟨rfl, by simp [encode, Instr.operands], rfl⟩
theorem pop (a : Reg) : Statement (.pop a) := ⟨rfl, by simp [encode, Instr.operands], rfl⟩
theorem equal (a : Reg) (b c : Operand) : Statement (.equal a b c) :=
  ⟨rfl, by simp [encode, Instr.operands], rfl⟩
theorem greaterThan (a : Reg) (b c : Operand) : Statement (.greaterThan a b c) :=
  ⟨rfl, by simp [encode, Instr.operands], rfl⟩
theorem jump (a : Operand) : Statement (.jump a) := ⟨rfl, by simp [encode, Instr.operands], rfl⟩
theorem jumpTrue (a b : Operand) : Statement (.jumpTrue a b) :=
  ⟨rfl, by simp [encode, Instr.operands], rfl⟩
theorem jumpFalse (a b : Operand) : Statement (.jumpFalse a b) :=
  ⟨rfl, by simp [encode, Instr.operands], rfl⟩
theorem add (a : Reg) (b c : Operand) : Statement (.add a b c) :=
  ⟨rfl, by simp [encode, Instr.operands], rfl⟩
theorem multiply (a : Reg) (b c : Operand) : Statement (.multiply a b c) :=
  ⟨rfl, by simp [encode, Instr.operands], rfl⟩
theorem modulo (a : Reg) (b c : Operand) : Statement (.modulo a b c) :=
  ⟨rfl, by simp [encode, Instr.operands], rfl⟩
theorem and (a : Reg) (b c : Operand) : Statement (.and a b c) :=
  ⟨rfl, by simp [encode, Instr.operands], rfl⟩
theorem or (a : Reg) (b c : Operand) : Statement (.or a b c) :=
  ⟨rfl, by simp [encode, Instr.operands], rfl⟩
theorem not (a : Reg) (b : Operand) : Statement (.not a b) :=
  ⟨rfl, by simp [encode, Instr.operands], rfl⟩
theorem readMemory (a : Reg) (b : Operand) : Statement (.readMemory a b) :=
  ⟨rfl, by simp [encode, Instr.operands], rfl⟩
theorem writeMemory (a b : Operand) : Statement (.writeMemory a b) :=
  ⟨rfl, by simp [encode, Instr.operands], rfl⟩
theorem call (a : Operand) : Statement (.call a) := ⟨rfl, by simp [encode, Instr.operands], rfl⟩
theorem ret : Statement .ret := ⟨rfl, by decide, rfl⟩
theorem out (a : Operand) : Statement (.out a) := ⟨rfl, by simp [encode, Instr.operands], rfl⟩
theorem inp (a : Reg) : Statement (.inp a) := ⟨rfl, by simp [encode, Instr.operands], rfl⟩
theorem noOp : Statement .noOp := ⟨rfl, by decide, rfl⟩

end Sys2Proof.Laws.EncodeLength
end

