-- ==== Sys2Proof/Tests/Slice0.lean ====
section
/-! SUPPORT. The model's own tests. Expected results are the spec's: the words are written out from
30_encoding.md R75 and R71, the vectors are those of 95_test_vectors.md (named S, Q or by section) or
the examples of the instruction rules. Then, for every statement with hypotheses, a witness that meets
them. -/

namespace Sys2Proof.Tests
open Sys2Proof Sys2Proof.Machine

/-- A launch with extent n, an image and INPUT (95_test_vectors.md section 0). -/
def bootN (n : Nat) (input : List Nat) (image : List Cell) : State :=
  State.fresh { extent := n, stackDepth := none, input := input } (imageMemory 0 image)

/-- The image-sized launch, N = L, with empty INPUT. -/
def boot (image : List Cell) : State := bootN image.length [] image

/-- The state after one step; the state itself where there is none. -/
def after (s : State) : State :=
  match step s with
  | .next t => t
  | .fault _ => s
  | .refused _ => s

/-- Whether the step from `s` ends Faulted with this reason, pc and detail, as 95_test_vectors.md
writes a fault. -/
def faultsWith (s : State) (reason : FaultReason) (pc : Nat) (detail : Option Nat) : Bool :=
  match (after s).status with
  | .faulted r => r.reason = reason && r.pc = pc && r.detail = detail && (after s).pc = pc
  | .running => false
  | .halted => false

/-! ## WellFormed smoke: an ill-formed word sequence for each check -/

theorem smoke_empty_is_no_instruction : wordsWellFormed [] = false := by decide
theorem smoke_opcode_22_refused : wordsWellFormed [22] = false := by decide
theorem smoke_register_word_is_no_opcode : wordsWellFormed [32768] = false := by decide
theorem smoke_missing_operand_refused : wordsWellFormed [9, 32768, 1] = false := by decide
theorem smoke_extra_operand_refused : wordsWellFormed [2, 5, 0] = false := by decide
theorem smoke_invalid_value_operand_refused : wordsWellFormed [2, 32776] = false := by decide
theorem smoke_literal_in_reg_position_refused : wordsWellFormed [1, 5, 0] = false := by decide
theorem smoke_invalid_reg_operand_refused : wordsWellFormed [3, 32776] = false := by decide
theorem smoke_well_formed_accepted : wordsWellFormed [9, 32768, 32775, 32767] = true := by decide

/-! ## Decoding: every constructor from words written out bit by bit (R75, R72) -/

theorem test_decode_control :
    decodeWords [0b0000000000000000] = .ok (.halt, 1) ∧
    decodeWords [0b0000000000010101] = .ok (.noOp, 1) := by decide

theorem test_decode_reg_stack :
    decodeWords [0b0000000000000001, 0b1000000000000011, 0b0000000000000110]
      = .ok (.set 3 (.lit 6), 3) ∧
    decodeWords [0b0000000000000010, 0b1000000000000101] = .ok (.push (.reg 5), 2) ∧
    decodeWords [0b0000000000000011, 0b1000000000000001] = .ok (.pop 1, 2) := by decide

theorem test_decode_compare :
    decodeWords [0b0000000000000100, 0b1000000000000000, 0b1000000000000001, 0b0000000000000101]
      = .ok (.equal 0 (.reg 1) (.lit 5), 4) ∧
    decodeWords [0b0000000000000101, 0b1000000000000010, 0b0000000000000011, 0b0000000000000111]
      = .ok (.greaterThan 2 (.lit 3) (.lit 7), 4) := by decide

theorem test_decode_branch :
    decodeWords [0b0000000000000110, 0b0000000000001100] = .ok (.jump (.lit 12), 2) ∧
    decodeWords [0b0000000000000111, 0b1000000000000000, 0b0000000000000011]
      = .ok (.jumpTrue (.reg 0) (.lit 3), 3) ∧
    decodeWords [0b0000000000001000, 0b1000000000000000, 0b0000000000001001]
      = .ok (.jumpFalse (.reg 0) (.lit 9), 3) ∧
    decodeWords [0b0000000000010001, 0b0000000000001000] = .ok (.call (.lit 8), 2) ∧
    decodeWords [0b0000000000010010] = .ok (.ret, 1) := by decide

theorem test_decode_alu :
    decodeWords [0b0000000000001001, 0b1000000000000000, 0b1000000000000001, 0b0000000000000100]
      = .ok (.add 0 (.reg 1) (.lit 4), 4) ∧
    decodeWords [0b0000000000001010, 0b1000000000000010, 0b0000000100101100, 0b0000000011001000]
      = .ok (.multiply 2 (.lit 300) (.lit 200), 4) ∧
    decodeWords [0b0000000000001011, 0b1000000000000000, 0b0000000000001010, 0b0000000000000100]
      = .ok (.modulo 0 (.lit 10) (.lit 4), 4) ∧
    decodeWords [0b0000000000001100, 0b1000000000000000, 0b0000000000001100, 0b0000000000001010]
      = .ok (.and 0 (.lit 12) (.lit 10), 4) ∧
    decodeWords [0b0000000000001101, 0b1000000000000000, 0b0000000000001100, 0b0000000000001010]
      = .ok (.or 0 (.lit 12) (.lit 10), 4) ∧
    decodeWords [0b0000000000001110, 0b1000000000000001, 0b0000000000000111]
      = .ok (.not 1 (.lit 7), 3) := by decide

theorem test_decode_memory :
    decodeWords [0b0000000000001111, 0b1000000000000001, 0b0000000000000110]
      = .ok (.readMemory 1 (.lit 6), 3) ∧
    decodeWords [0b0000000000010000, 0b1000000000000000, 0b0000000000010011]
      = .ok (.writeMemory (.reg 0) (.lit 19), 3) := by decide

theorem test_decode_io :
    decodeWords [0b0000000000010011, 0b1000000000000000] = .ok (.out (.reg 0), 2) ∧
    decodeWords [0b0000000000010100, 0b1000000000000111] = .ok (.inp 7, 2) := by decide

/-- 95_test_vectors.md section 2.1. -/
theorem test_resolve_boundaries :
    resolve 0 = .ok (.lit 0) ∧ resolve 32767 = .ok (.lit 32767) ∧
    resolve 32768 = .ok (.reg 0) ∧ resolve 32771 = .ok (.reg 3) ∧
    resolve 32775 = .ok (.reg 7) ∧
    resolve 32776 = .error ⟨.invalidOperand, some 32776⟩ ∧
    resolve 65535 = .error ⟨.invalidOperand, some 65535⟩ := by decide

/-- The table's word alone, its operand words zero: a value position holds the Literal 0, a Reg
position refuses it (R76). -/
theorem test_decodeTableWord :
    decodeTableWord 16 0 = some .halt ∧ decodeTableWord 16 2 = some (.push (.lit 0)) ∧
    decodeTableWord 16 1 = none ∧ decodeTableWord 16 22 = none ∧
    decodeTableWord 48 0x000680030001 = some (.set 3 (.lit 6)) := by decide

theorem test_withFetchWord_runs_it_first :
    (after (State.reset.withFetchWord 16 0)).status = .halted ∧
    (after (State.reset.withFetchWord 48 0x000680030001)).reg 3 = 6 ∧
    faultsWith (State.reset.withFetchWord 16 1) .registerExpected 0 (some 0) = true := by decide

/-! ## Decode faults (95_test_vectors.md section 2.2) -/

theorem test_unknown_opcode :
    faultsWith (boot [22]) .unknownOpcode 0 (some 22) = true ∧
    faultsWith (boot [32768]) .unknownOpcode 0 (some 32768) = true := by decide
theorem test_operand_fetch_past_extent :
    faultsWith (boot [9, 32768, 32769]) .outOfBounds 0 (some 3) = true := by decide
theorem test_register_expected :
    faultsWith (boot [1, 5, 0]) .registerExpected 0 (some 5) = true ∧
    faultsWith (boot [9, 5, 40000, 0]) .registerExpected 0 (some 5) = true := by decide
theorem test_invalid_operand :
    faultsWith (boot [1, 32776, 0]) .invalidOperand 0 (some 32776) = true ∧
    faultsWith (boot [7, 0, 32776, 0]) .invalidOperand 0 (some 32776) = true := by decide

/-! ## One step of each instruction -/

/-- S2. -/
theorem test_halt : (after (boot [0])).status = .halted ∧ (after (boot [0])).pc = 0 := by decide
/-- Section 2.3. -/
theorem test_noOp : (after (boot [21, 0])).pc = 1 := by decide
theorem test_noOp_at_the_end : faultsWith (boot [21]) .outOfBounds 0 (some 1) = true := by decide
/-- Section 2.4. -/
theorem test_set :
    (after (boot [1, 32768, 6, 0])).reg 0 = 6 ∧ (after (boot [1, 32768, 6, 0])).pc = 3 := by decide
/-- P7: the effect is kept by the sequencer's fault. -/
theorem test_set_kept_by_sequencer_fault :
    (after (boot [1, 32768, 5])).reg 0 = 5 ∧
    faultsWith (boot [1, 32768, 5]) .outOfBounds 0 (some 3) = true := by decide
theorem test_push : (after (boot [2, 7, 0])).stack = [7] := by decide
/-- Section 2.4, STACK_DEPTH = 2. -/
theorem test_push_overflow :
    let s := { boot [2, 3, 0] with
      stack := [1, 2], launch := { extent := 3, stackDepth := some 2, input := [] } }
    (after s).stack = [1, 2] ∧ faultsWith s .stackOverflow 0 (some 3) = true := by decide
/-- Section 2.4: last in, first out. -/
theorem test_pop :
    let s := { boot [3, 32768, 0] with stack := [7, 8] }
    (after s).reg 0 = 8 ∧ (after s).stack = [7] := by decide
/-- S3 and section 3. -/
theorem test_pop_faults :
    faultsWith (boot [3, 32768]) .stackUnderflow 0 none = true ∧
    faultsWith { boot [3, 32768] with stack := [32768] } .wordOutOfRange 0 (some 32768)
      = true := by decide
/-- Section 2.5. -/
theorem test_equal :
    (after (boot [4, 32768, 5, 5, 0])).reg 0 = 1 ∧
    (after (boot [4, 32768, 5, 6, 0])).reg 0 = 0 := by decide
theorem test_greaterThan_unsigned_strict :
    (after (boot [5, 32768, 32767, 0, 0])).reg 0 = 1 ∧
    (after (boot [5, 32768, 0, 32767, 0])).reg 0 = 0 ∧
    (after (boot [5, 32768, 5, 5, 0])).reg 0 = 0 := by decide
/-- Q6 and section 2.3: the outcome of the same jump depends on N. -/
theorem test_jump :
    (after (bootN 32768 [] [6, 100])).pc = 100 ∧
    faultsWith (boot [6, 100]) .outOfBounds 0 (some 100) = true := by decide
/-- Section 2.6. -/
theorem test_jumpTrue :
    (after { boot [7, 32768, 0, 0] with x := Vector.replicate 8 2 }).pc = 0 ∧
    (after (boot [7, 32768, 0, 0])).pc = 3 ∧
    faultsWith (boot [7, 1, 50, 0]) .outOfBounds 0 (some 50) = true := by decide
theorem test_jumpFalse :
    (after (boot [8, 32768, 0, 0])).pc = 0 ∧ (after (boot [8, 1, 0, 0])).pc = 3 ∧
    faultsWith (boot [8, 0, 9, 0]) .outOfBounds 0 (some 9) = true := by decide
/-- Section 2.7. -/
theorem test_add :
    (after (boot [9, 32768, 32767, 1, 0])).reg 0 = 0 ∧
    (after (boot [9, 32768, 32767, 32767, 0])).reg 0 = 32766 := by decide
/-- Section 2.7: the sources are read before the destination is written. -/
theorem test_add_reads_before_it_writes :
    (after { boot [9, 32768, 32768, 32768, 0] with x := Vector.replicate 8 20000 }).reg 0
      = 7232 := by decide
theorem test_multiply :
    (after (boot [10, 32768, 32767, 32767, 0])).reg 0 = 1 ∧
    (after (boot [10, 32768, 300, 200, 0])).reg 0 = 27232 := by decide
theorem test_modulo :
    (after (boot [11, 32768, 10, 4, 0])).reg 0 = 2 ∧
    (after (boot [11, 32768, 5, 7, 0])).reg 0 = 5 := by decide
theorem test_modulo_by_zero :
    faultsWith (boot [11, 32768, 5, 0]) .divideByZero 0 none = true ∧
    faultsWith (boot [11, 7, 5, 0]) .registerExpected 0 (some 7) = true := by decide
theorem test_and : (after (boot [12, 32768, 12, 10, 0])).reg 0 = 8 := by decide
theorem test_or : (after (boot [13, 32768, 21845, 10922, 0])).reg 0 = 32767 := by decide
theorem test_not :
    (after (boot [14, 32768, 21845, 0])).reg 0 = 10922 ∧
    (after (boot [14, 32768, 32767, 0])).reg 0 = 0 := by decide
/-- Section 2.8. -/
theorem test_readMemory :
    (after (boot [15, 32768, 4, 0, 77])).reg 0 = 77 ∧
    (after (bootN 32768 [] [15, 32768, 9, 0])).status = .running := by decide
theorem test_readMemory_faults :
    faultsWith (boot [15, 32768, 3, 32768, 0]) .wordOutOfRange 0 (some 32768) = true ∧
    faultsWith (boot [15, 32768, 9, 0]) .outOfBounds 0 (some 9) = true ∧
    faultsWith (boot [15, 32768, 50]) .outOfBounds 0 (some 50) = true := by decide
/-- Section 2.8: the address is the first operand; the instruction's own words may be overwritten. -/
theorem test_writeMemory :
    (after (boot [16, 4, 19, 0, 5])).memRead 4 = .ok 19 ∧
    (after (boot [16, 1, 5, 21, 0])).memRead 1 = .ok 5 ∧
    (after (boot [16, 1, 5, 21, 0])).pc = 3 := by decide
theorem test_writeMemory_outside :
    (after (boot [16, 10, 1, 0])).mem = (boot [16, 10, 1, 0]).mem ∧
    faultsWith (boot [16, 10, 1, 0]) .outOfBounds 0 (some 10) = true := by decide
/-- Section 2.6. -/
theorem test_call :
    (after (boot [17, 3, 0, 18])).stack = [2] ∧ (after (boot [17, 3, 0, 18])).pc = 3 := by decide
theorem test_call_target_outside_keeps_the_push :
    (after (boot [17, 9, 0])).stack = [2] ∧
    faultsWith (boot [17, 9, 0]) .outOfBounds 0 (some 9) = true := by decide
theorem test_ret :
    (after (boot [18])).status = .halted ∧
    (after { boot [18, 0, 0, 0, 0] with stack := [7, 4] }).pc = 4 ∧
    (after { boot [18, 0, 0, 0, 0] with stack := [7, 4] }).stack = [7] := by decide
/-- Section 2.4, decision D21. -/
theorem test_ret_to_32768 :
    let s := { bootN 32768 [] [18] with stack := [32768] }
    (after s).stack = [] ∧ faultsWith s .outOfBounds 0 (some 32768) = true := by decide
/-- Section 2.3: the output is kept by the sequencer's fault. -/
theorem test_out :
    (after (boot [19, 65])).out = [65] ∧
    faultsWith (boot [19, 65]) .outOfBounds 0 (some 2) = true := by decide
/-- Section 2.9. -/
theorem test_in :
    (after (bootN 3 [104, 105, 10] [20, 32768, 0])).reg 0 = 104 ∧
    (after (bootN 3 [104, 105, 10] [20, 32768, 0])).inpos = 1 := by decide
theorem test_in_faults :
    faultsWith (boot [20, 32768, 0]) .endOfInput 0 none = true ∧
    faultsWith (bootN 3 [40000] [20, 32768, 0]) .wordOutOfRange 0 (some 40000) = true ∧
    (after (bootN 3 [40000] [20, 32768, 0])).inpos = 0 := by decide

/-! ## Loader, terminal states, trace -/

/-- Section 1.3. -/
theorem test_loader :
    loadImage [0x09, 0x00, 0x00, 0x80, 0x01, 0x80, 0x04, 0x00, 0x13, 0x00, 0x00, 0x80, 0x00, 0x00]
      = .ok [9, 32768, 32769, 4, 19, 32768, 0] ∧
    loadImage [0xFF, 0xFF] = .ok [65535] ∧ loadImage [0x00] = .error .oddByteCount := by decide
/-- Q5: the memory of a launch reads as the image, and zero above it. -/
theorem test_launch_memory :
    (bootN 9 [] [9, 0, 32769]).mem = [(0, 9), (2, 32769)] ∧
    (bootN 9 [] [9, 0, 32769]).memRead 1 = .ok 0 ∧
    (bootN 9 [] [9, 0, 32769]).memRead 9 = .error ⟨.outOfBounds, some 9⟩ := by decide
theorem test_trace_of_a_jump :
    traceStep (boot [6, 1]) = some ⟨0, 6, [.lit 1], 1⟩ ∧ traceStep (boot [6, 2]) = none := by decide
theorem test_no_step_after_halt : step { boot [21, 0] with status := .halted }
    = .fault .alreadyHalted := rfl

/-! ## Witnesses: for each statement with hypotheses, a state and operands that meet them -/

/-- The image of scenario S1, N = 7. -/
def s1 : State := boot [9, 32768, 32769, 4, 19, 32768, 0]

theorem witness_DecodeOfEncodeIsTheInstruction :
    ∀ k w, (encode (.add 0 (.reg 1) (.lit 4)))[k]? = some w →
      fetchList [9, 32768, 32769, 4] (0 + k) = .ok w := by
  intro k w h
  rw [Nat.zero_add]
  change ([9, 32768, 32769, 4] : List Cell)[k]? = some w at h
  simp only [fetchList, h]
theorem witness_EncodeOfDecodedWordsIsThoseWords :
    decodeWords [9, 32768, 32769, 4, 19, 32768, 0] = .ok (.add 0 (.reg 1) (.lit 4), 4) := by decide
theorem witness_ResolverClassifiesRawWords :
    (32767 : Cell).toNat ≤ 32767 ∧ (32768 ≤ (32768 : Cell).toNat ∧ (32775 : Cell).toNat ≤ 32775) ∧
      32775 < (32776 : Cell).toNat := by decide
theorem witness_StepRunsTheDecodedInstruction :
    s1.status = .running ∧ decode s1.memRead s1.pc = .ok (.add 0 (.reg 1) (.lit 4), 4) := by decide
theorem witness_StepRunsTheEncodedWords :
    s1.status = .running ∧ ∀ k w, (encode (.add 0 (.reg 1) (.lit 4)))[k]? = some w →
      s1.memRead (s1.pc + k) = .ok w := by
  refine ⟨rfl, fun k w h => ?_⟩
  change ([9, 32768, 32769, 4] : List Cell)[k]? = some w at h
  match k, h with
  | 0, h | 1, h | 2, h | 3, h => cases h; decide
theorem witness_UnknownOpcodeExactlyAbove21 :
    (boot [22]).status = .running ∧ (boot [22]).memRead 0 = .ok 22 ∧ 21 < (22 : Cell).toNat ∧
    (boot [21]).memRead 0 = .ok 21 := by decide
theorem witness_FirstDecodeFaultIsReported_opcode_fetch :
    (boot []).status = .running ∧ (boot []).launch.extent ≤ (boot []).pc := by decide
theorem witness_FirstDecodeFaultIsReported_operand_fetch :
    (boot [9, 32768]).memRead 0 = .ok 9 ∧ operandKinds 9 = some [.reg, .val, .val] ∧
    (boot [9, 32768]).memRead 1 = .ok 32768 ∧ Kind.reg.admits 32768 = true ∧
    (boot [9, 32768]).launch.extent ≤ 0 + 1 + 1 := by decide
theorem witness_FirstDecodeFaultIsReported_operand_words :
    (boot [1, 32776, 0]).memRead (0 + 1 + 0) = .ok 32776 ∧ 32775 < (32776 : Cell).toNat ∧
    (boot [1, 32767, 0]).memRead (0 + 1 + 0) = .ok 32767 ∧ (32767 : Cell).toNat ≤ 32767 ∧
    operandKinds 1 = some [.reg, .val] := by decide
theorem witness_NoOpOnlyAdvancesThePc :
    (boot [21, 0]).pc + 1 < (boot [21, 0]).launch.extent := by decide
theorem witness_SetWritesTheValue :
    (boot [1, 32768, 6, 0]).pc + 3 < (boot [1, 32768, 6, 0]).launch.extent := by decide
theorem witness_PushAppendsOrOverflows_room :
    (∀ d, (boot [2, 7, 0]).launch.stackDepth = some d → (boot [2, 7, 0]).stack.length < d) ∧
    (boot [2, 7, 0]).pc + 2 < (boot [2, 7, 0]).launch.extent :=
  ⟨(fun d h => by cases h), by decide⟩
/-- A state whose stack of depth 2 is full. -/
def fullStack : State :=
  { boot [2, 3, 0] with stack := [1, 2], launch := ⟨3, some 2, []⟩ }
theorem witness_PushAppendsOrOverflows_full :
    fullStack.launch.stackDepth = some 2 ∧ 2 ≤ fullStack.stack.length := by decide
theorem witness_PopTakesTheTail :
    ({ boot [3, 32768, 0] with stack := [7, 32767] } : State).stack = [7] ++ [32767] ∧
    (boot [3, 32768, 0]).pc + 2 < (boot [3, 32768, 0]).launch.extent ∧
    ({ boot [3, 32768, 0] with stack := [32768] } : State).stack = [] ++ [32768] ∧
    (boot [3, 32768, 0]).stack = [] := by decide
theorem witness_EqualWritesOneOrZero :
    (boot [4, 32768, 5, 5, 0]).pc + 4 < (boot [4, 32768, 5, 5, 0]).launch.extent := by decide
theorem witness_GreaterThanIsUnsignedAndStrict :
    (boot [5, 32768, 5, 5, 0]).pc + 4 < (boot [5, 32768, 5, 5, 0]).launch.extent := by decide
theorem witness_JumpGoesToItsTargetOrFaults :
    ((boot [6, 1]).val (.lit 1)).toNat < (boot [6, 1]).launch.extent ∧
    (boot [6, 1]).launch.extent ≤ ((boot [6, 1]).val (.lit 2)).toNat := by decide
theorem witness_JumpTrueIsTakenOnNonZero :
    3 = (if ((boot [7, 0, 9, 0]).val (.lit 0)).toNat ≠ 0 then 9 else (boot [7, 0, 9, 0]).pc + 3) ∧
    3 < (boot [7, 0, 9, 0]).launch.extent ∧
    4 = (if ((boot [7, 1, 4, 0]).val (.lit 1)).toNat ≠ 0 then 4 else (boot [7, 1, 4, 0]).pc + 3) ∧
    (boot [7, 1, 4, 0]).launch.extent ≤ 4 := by decide
theorem witness_JumpFalseIsTakenOnZero :
    3 = (if ((boot [8, 1, 9, 0]).val (.lit 1)).toNat = 0 then 9 else (boot [8, 1, 9, 0]).pc + 3) ∧
    3 < (boot [8, 1, 9, 0]).launch.extent ∧
    4 = (if ((boot [8, 0, 4, 0]).val (.lit 0)).toNat = 0 then 4 else (boot [8, 0, 4, 0]).pc + 3) ∧
    (boot [8, 0, 4, 0]).launch.extent ≤ 4 := by decide
theorem witness_AddIsTheSumModulo32768 : s1.pc + 4 < s1.launch.extent := by decide
theorem witness_MultiplyIsTheProductModulo32768 :
    (boot [10, 32768, 3, 4, 0]).pc + 4 < (boot [10, 32768, 3, 4, 0]).launch.extent := by decide
theorem witness_ModuloIsTheRemainderOrFaults :
    ((boot [11, 32768, 10, 1, 0]).val (.lit 1)).toNat ≠ 0 ∧
    (boot [11, 32768, 10, 1, 0]).pc + 4 < (boot [11, 32768, 10, 1, 0]).launch.extent ∧
    ((boot [11, 32768, 10, 0, 0]).val (.lit 0)).toNat = 0 := by decide
theorem witness_AndIsBitwise :
    (boot [12, 32768, 12, 10, 0]).pc + 4 < (boot [12, 32768, 12, 10, 0]).launch.extent := by decide
theorem witness_OrIsBitwise :
    (boot [13, 32768, 12, 10, 0]).pc + 4 < (boot [13, 32768, 12, 10, 0]).launch.extent := by decide
theorem witness_NotIsTheComplementAndAnInvolution :
    s1.pc + 3 < s1.launch.extent ∧ s1.pc + 6 < s1.launch.extent := by decide
theorem witness_ReadMemoryReadsTheCell :
    (boot [15, 32768, 4, 0, 32767]).memRead 4 = .ok 32767 ∧
    (boot [15, 32768, 4, 0, 32767]).pc + 3 < 5 ∧
    (boot [15, 32768, 4, 0, 32768]).memRead 4 = .ok 32768 ∧
    (boot [15, 32768, 4, 0]).launch.extent ≤ (boot [15, 32768, 4, 0]).address (.lit 4) := by decide
theorem witness_WriteMemoryStoresOneCell :
    (boot [16, 4, 19, 0, 5]).mem.wf = true ∧
    (boot [16, 4, 19, 0, 5]).address (.lit 4) < (boot [16, 4, 19, 0, 5]).launch.extent ∧
    (boot [16, 4, 19, 0, 5]).pc + 3 < (boot [16, 4, 19, 0, 5]).launch.extent ∧
    (boot [16, 4, 19, 0]).launch.extent ≤ (boot [16, 4, 19, 0]).address (.lit 4) := by decide
theorem witness_CallPushesItsFallthrough_room :
    (∀ d, (boot [17, 2, 0]).launch.stackDepth = some d → (boot [17, 2, 0]).stack.length < d) ∧
    ((boot [17, 2, 0]).val (.lit 2)).toNat < (boot [17, 2, 0]).launch.extent ∧
    (boot [17, 2, 0]).launch.extent ≤ ((boot [17, 2, 0]).val (.lit 3)).toNat :=
  ⟨(fun d h => by cases h), by decide, by decide⟩
theorem witness_CallPushesItsFallthrough_full :
    fullStack.launch.stackDepth = some 2 ∧ 2 ≤ fullStack.stack.length := by decide
theorem witness_ReturnPopsOrHalts :
    (boot [18]).stack = [] ∧
    ({ boot [18, 0] with stack := [1] } : State).stack = [] ++ [1] ∧
    1 < (boot [18, 0]).launch.extent ∧ (boot [18]).launch.extent ≤ 1 := by decide
theorem witness_OutAppendsTheValue :
    (boot [19, 65, 0]).pc + 2 < (boot [19, 65, 0]).launch.extent := by decide
theorem witness_InTakesOneCode :
    (bootN 3 [32767] [20, 32768, 0]).launch.input[0]? = some 32767 ∧
    (bootN 3 [32767] [20, 32768, 0]).pc + 2 < 3 ∧
    (bootN 3 [32768] [20, 32768, 0]).launch.input[0]? = some 32768 ∧
    (boot [20, 32768, 0]).launch.input.length ≤ (boot [20, 32768, 0]).inpos := by decide
theorem witness_StackUnderflowIsPopOnEmptyStackOnly :
    (boot [3, 32768]).status = .running ∧ (boot [3, 32768]).stack = [] ∧
    (boot [18]).stack = [] := by decide
theorem witness_DivideByZeroIsModuloByZeroOnly :
    (boot [11, 32768, 5, 0]).status = .running := by decide
theorem witness_FaultRecordsFitTheTable :
    ∃ t rec, step (boot [22]) = .next t ∧ t.status = .faulted rec := ⟨_, _, rfl, rfl⟩
theorem witness_FaultsArePreciseOrKeepTheEffect_precise :
    (boot [3, 32768]).status = .running ∧
    ∃ t rec, exec (.pop 0) (boot [3, 32768]) = .next t ∧ t.status = .faulted rec :=
  ⟨rfl, _, _, rfl, rfl⟩
theorem witness_FaultsArePreciseOrKeepTheEffect_sequencer :
    (boot [19, 65]).status = .running ∧
    ∃ t rec, exec (.out (.lit 65)) (boot [19, 65]) = .next t ∧ t.status = .faulted rec ∧
      t.out = [65] := ⟨rfl, _, _, rfl, rfl, rfl⟩
theorem witness_NextPcOutsideTheExtentFaults :
    (boot [19, 65]).status = .running ∧ (boot [19, 65]).launch.extent = 2 ∧
    ∃ t, exec (.out (.lit 65)) ((boot [19, 65]).withExtent 3) = .next t ∧ t.status = .running ∧
      t.pc = 2 := ⟨rfl, rfl, _, rfl, rfl, rfl⟩
theorem witness_OnlyHaltAndEmptyReturnHalt :
    (boot [0]).status = .running ∧ ∃ t, exec .halt (boot [0]) = .next t := ⟨rfl, _, rfl⟩
theorem witness_OnlyTheDestinationRegisterChanges :
    ∃ t, step (boot [1, 32771, 6, 0]) = .next t ∧ t.reg 3 ≠ (boot [1, 32771, 6, 0]).reg 3 :=
  ⟨_, rfl, by decide⟩
theorem witness_OnlyFourInstructionsTouchTheStack :
    ∃ t, exec (.push (.lit 7)) (boot [2, 7, 0]) = .next t ∧ t.stack = [7] := ⟨_, rfl, rfl⟩
theorem witness_OnlyWriteMemoryChangesMemory :
    (boot [16, 4, 19, 0, 5]).mem.wf = true ∧ ∃ t, step (boot [16, 4, 19, 0, 5]) = .next t ∧
      t.memRead 4 ≠ (boot [16, 4, 19, 0, 5]).memRead 4 := ⟨rfl, _, rfl, by decide⟩
theorem witness_OutputOnlyAppendsAndIsNeverRead :
    ∃ t, step (boot [19, 65, 0]) = .next t ∧ t.out = [65] := ⟨_, rfl, rfl⟩
theorem witness_MemoryNeverGrows :
    (∃ t, step s1 = .next t) ∧ s1.launch.extent ≤ 7 := ⟨⟨_, rfl⟩, by decide⟩
theorem witness_RunningPcStaysInTheExtent :
    (∃ t, step s1 = .next t ∧ t.status = .running) ∧
    ∃ s, State.launched ⟨1, none, []⟩ [0] = .ok s := ⟨⟨_, rfl, rfl⟩, _, rfl⟩
theorem witness_NextPcComesFromItsSource :
    s1.status = .running ∧
    ∃ t, exec (.jump (.lit 6)) s1 = .next t ∧ t.status = .running := ⟨rfl, _, rfl, rfl⟩
theorem witness_LaunchMeetsTheInvariant :
    ∃ s, State.launched ⟨32768, some 1, [1]⟩ [9, 0, 65535] = .ok s := ⟨_, rfl⟩
theorem witness_StepKeepsTheInvariant : s1.Inv ∧ ∃ t, step s1 = .next t :=
  ⟨⟨by decide, by decide, by decide, by decide, by decide, fun d h => (by cases h), by decide,
    fun r h => (by cases h)⟩, _, rfl⟩
theorem witness_ReturnResumesAfterTheCall :
    (boot [17, 3, 0, 18]).status = .running ∧
    ∃ t, exec (.call (.lit 3)) (boot [17, 3, 0, 18]) = .next t ∧ t.status = .running ∧
      (boot [17, 3, 0, 18]).pc + 2 < (boot [17, 3, 0, 18]).launch.extent :=
  ⟨rfl, _, rfl, rfl, by decide⟩
theorem witness_PushThenPopReturnsTheValue :
    (boot [2, 12345, 3, 32768, 0]).status = .running ∧
    ∃ t, exec (.push (.lit 12345)) (boot [2, 12345, 3, 32768, 0]) = .next t ∧
      t.status = .running ∧ (boot [2, 12345, 3, 32768, 0]).pc + 4 < 5 :=
  ⟨rfl, _, rfl, rfl, by decide⟩
theorem witness_WrittenCellIsReadAndFetched :
    (boot [16, 3, 0, 1, 0, 0, 0]).mem.wf = true ∧
    (boot [16, 3, 0, 1, 0, 0, 0]).status = .running ∧
    (∃ t, exec (.writeMemory (.lit 3) (.lit 0)) (boot [16, 3, 0, 1, 0, 0, 0]) = .next t ∧
      t.status = .running ∧ t.pc = 3 ∧ t.pc + 3 < t.launch.extent) ∧
    ∃ t, exec (.writeMemory (.lit 3) (.lit 22)) (boot [16, 3, 22, 1, 0, 0, 0]) = .next t ∧
      t.status = .running ∧ t.pc = 3 := by
  refine ⟨by decide, rfl, ⟨_, rfl, rfl, rfl, by decide⟩, _, rfl, rfl, rfl⟩
theorem witness_SubtractionIdiomSubtracts :
    (Operand.lit 5 ≠ .reg 1) ∧
    (bootN 12 [] []).pc + 11 < (bootN 12 [] []).launch.extent := by decide
theorem witness_LargerMemoryDoesNotChangeACleanStep :
    (∃ t, CleanStep s1 t) ∧ s1.launch.extent ≤ 32768 := ⟨⟨_, rfl, rfl⟩, by decide⟩
theorem witness_FiniteStackIsUnboundedUntilItOverflows :
    ∃ t, step fullStack = .next t ∧ t.status ≠ .running := ⟨_, rfl, by decide⟩
theorem witness_RunsStartAtAddressZero :
    ∃ s, State.launched ⟨0, none, []⟩ [] = .ok s := ⟨_, rfl⟩
theorem witness_LaunchPlacesTheImage :
    ∃ s, State.launched ⟨4, none, []⟩ [9, 0] = .ok s ∧ ([9, 0] : List Cell)[1]? = some 0 ∧
      ([9, 0] : List Cell).length ≤ 3 ∧ 3 < 4 := ⟨_, rfl, rfl, by decide, by decide⟩
theorem witness_LoaderReadsLittleEndianWords :
    ([1, 2, 3] : List Byte).length % 2 = 1 ∧ ([1, 2] : List Byte).length % 2 = 0 ∧
    ([1, 2] : List Byte)[2 * 0]? = some 1 ∧ ([1, 2] : List Byte)[2 * 0 + 1]? = some 2 := by decide
theorem witness_EmptyMemoryFaultsAtTheFirstFetch :
    ∃ s, State.launched ⟨0, none, []⟩ [] = .ok s ∧ s.status = .running := ⟨_, rfl, rfl⟩
theorem witness_TraceReportsExactlyTheCleanSteps :
    (∃ t, CleanStep s1 t) ∧ ∀ t, ¬ CleanStep (boot [22]) t :=
  ⟨⟨_, rfl, rfl⟩, fun t h => by obtain ⟨h, hc⟩ := h; cases h; cases hc⟩

end Sys2Proof.Tests
end

/-! PROOFS. The architectural state (10_state.md): what a launch answers, that a step keeps the launch
parameters, and the statements of that file. -/

namespace Sys2Proof.Machine

/-- Everything a launch can answer with: the fresh core with the image in memory, within the limits
of 70_reset_and_hazards.md R214. -/
theorem State.launched_ok_iff {params : LaunchParams} {image : List Cell} {s : State} :
    State.launched params image = .ok s ↔
      (image.length ≤ params.extent ∧ params.extent ≤ Config.maxExtent) ∧
        s = State.fresh params (imageMemory 0 image) := by
  unfold State.launched
  split
  next hN => simp [Nat.not_le.mpr hN]
  next hN =>
    split
    next hL => simp [Nat.not_le.mpr hL]
    next hL => simp [Nat.not_lt.mp hL, Nat.not_lt.mp hN, eq_comm]

/-- An instruction writes no launch parameter, whether it faults, halts or goes on
(10_state.md R20). -/
theorem exec_keeps_launch {s t : State} {i : Instr} (h : exec i s = .next t) :
    t.launch = s.launch := by
  obtain ⟨r, -, rfl⟩ | ⟨-, rfl⟩ | ⟨u, n, hu, rfl⟩ := exec_next_cases h
  · rfl
  · rfl
  · obtain ⟨-, -, hlaunch⟩ := hu.keeps
    rw [State.sequence_launch, hlaunch]

/-- A step writes no launch parameter (10_state.md R20). -/
theorem step_keeps_launch {s t : State} (h : step s = .next t) : t.launch = s.launch := by
  obtain ⟨-, ⟨i, n, -, hexec⟩ | ⟨r, -, rfl⟩⟩ := step_cases s h
  · exact exec_keeps_launch hexec
  · rfl

/-- Settles O43: the step keeps the extent, so an address outside it before is outside it after. -/
theorem memoryNeverGrows : Obligations.MemoryNeverGrows := by
  intro s t h
  have hlaunch : t.launch = s.launch := step_keeps_launch h
  refine ⟨hlaunch, fun addr haddr => ?_⟩
  have hout : t.launch.extent ≤ addr := hlaunch ▸ haddr
  exact ⟨State.memRead_outside hout, State.memWrite_outside hout⟩

/-- Settles O55: reset and every launch are a fresh core. -/
theorem runsStartAtAddressZero : Obligations.RunsStartAtAddressZero := by
  refine ⟨⟨rfl, rfl⟩, fun params image s h => ?_⟩
  obtain ⟨-, rfl⟩ := State.launched_ok_iff.mp h
  exact ⟨rfl, rfl⟩

end Sys2Proof.Machine

/-! PROOFS. The encoding (30_encoding.md): the operand resolver on every raw word. -/

namespace Sys2Proof

/-- Settles O4: each of the three ranges of R71 has its resolver equation, and neither the narrowing
to a Word nor the register index wraps inside its range. -/
theorem resolverClassifiesRawWords : Obligations.ResolverClassifiesRawWords := by
  intro raw
  refine ⟨fun hlit => ⟨_, resolve_literal hlit, ?_⟩,
    fun hlow hhigh => ⟨_, resolve_register hlow hhigh, ?_⟩, resolve_invalid⟩
  · rw [narrow_toNat]
    exact Nat.mod_eq_of_lt (Nat.lt_succ_of_le hlit)
  · have hindex : raw.toNat - 32768 < 8 := by omega
    exact Nat.mod_eq_of_lt hindex

end Sys2Proof

/-! PROOFS. The program-counter sequencer (40_execution_cycle.md section 3): where a next pc comes
from. -/

namespace Sys2Proof.Machine

/-- A sequencer that leaves the core Running has moved the pc to the address it was handed
(40_execution_cycle.md R101). -/
theorem State.sequence_pc_of_running {s : State} {i : Instr} {n : Nat}
    (h : (s.sequence i n).status = .running) : (s.sequence i n).pc = n := by
  obtain ⟨-, hin⟩ | ⟨-, hout⟩ := s.sequence_cases i n
  · rw [hin]
  · rw [hout, State.raise_status] at h
    cases h

/-- An instruction that leaves the core Running had an effect, and the pc is the address that effect
handed the sequencer: a fault and a halt both end the run. -/
theorem exec_running_effect {s t : State} {i : Instr} (h : exec i s = .next t)
    (ht : t.status = .running) : ∃ u, EffectOf s i u t.pc := by
  obtain ⟨r, -, rfl⟩ | ⟨-, rfl⟩ | ⟨u, n, hu, rfl⟩ := exec_next_cases h
  · cases ht
  · cases ht
  · exact ⟨u, (State.sequence_pc_of_running ht).symm ▸ hu⟩

/-- Settles O45: the pc of a Running next state is the address its effect handed the sequencer, and
each effect hands it the source of its row in the table of 40_execution_cycle.md R100. -/
theorem nextPcComesFromItsSource : Obligations.NextPcComesFromItsSource := by
  intro i s t _ hexec ht
  obtain ⟨u, hu⟩ := exec_running_effect hexec ht
  generalize t.pc = n at hu ⊢
  cases hu with
  | jump a => rfl
  | call a hroom => rfl
  | jumpTrue a b => simp [nonZero]
  | jumpFalse a b => simp [nonZero]
  | ret st _ hstack => exact ⟨st, _, hstack, rfl⟩
  | write i a v hd hv =>
    -- An instruction that computes a Word is in none of the rows but the fallthrough's.
    split
    case h_7 => rfl
    all_goals cases hv
  | noOp => rfl
  | modulo a b c hnz => rfl
  | read a b haddr hword => rfl
  | push a hroom => rfl
  | pop a st v hstack hword => rfl
  | store a b haddr => rfl
  | out a => rfl
  | inp a c hcode hword => rfl

end Sys2Proof.Machine

/-! PROOFS. Machine control (41_machine_control.md): which instructions end a run with Halted. -/

namespace Sys2Proof.Machine

/-- The sequencer never halts a core that runs: it moves the pc or it faults
(40_execution_cycle.md R101). -/
theorem State.sequence_status_ne_halted {s : State} (hs : s.status = .running) (i : Instr)
    (n : Nat) : (s.sequence i n).status ≠ .halted := by
  intro h
  obtain ⟨-, hin⟩ | ⟨-, hout⟩ := s.sequence_cases i n
  · rw [hin, hs] at h
    cases h
  · rw [hout, State.raise_status] at h
    cases h

/-- The converse of `exec_cases` for the halts: Halt, and Return on an empty stack, change the status
to Halted and nothing else (41_machine_control.md R115, 44_branch.md R143). -/
theorem exec_of_halts {s : State} {i : Instr} (h : i = .halt ∨ i = .ret ∧ s.stack = []) :
    exec i s = .next { s with status := .halted } := by
  obtain rfl | ⟨rfl, hempty⟩ := h
  · exact exec_halt s
  · obtain ⟨-, e⟩ | ⟨st, v, hstack, -⟩ := exec_ret_cases s
    · exact e
    · simp [hempty] at hstack

/-- Settles O38: of the three ends of an instruction, a fault leaves Faulted and the sequencer leaves
Running or Faulted, so only the halts are left. -/
theorem onlyHaltAndEmptyReturnHalt : Obligations.OnlyHaltAndEmptyReturnHalt := by
  refine ⟨fun i s t hs hexec => ⟨fun ht => ?_, fun hhalts => ?_⟩, rfl⟩
  · obtain ⟨r, -, rfl⟩ | ⟨hhalts, -⟩ | ⟨u, n, hu, rfl⟩ := exec_next_cases hexec
    · cases ht
    · exact hhalts
    · obtain ⟨-, hstatus, -⟩ := hu.keeps
      exact absurd ht (State.sequence_status_ne_halted (hstatus.trans hs) i n)
  · rw [exec_of_halts hhalts] at hexec
    cases hexec
    rfl

end Sys2Proof.Machine

/-! PROOFS. Registers and the stack (42_register_and_stack.md): what Set leaves, and that Pop undoes
Push. -/

namespace Sys2Proof.Machine

/-- Inside the extent the pc becomes the address handed over (40_execution_cycle.md R101). -/
theorem State.sequence_pc_of_inside {s : State} {n : Nat} (h : n < s.launch.extent) (i : Instr) :
    (s.sequence i n).pc = n := by
  rw [State.sequence_inside s h]

/-- Inside the extent the sequencer keeps the status (40_execution_cycle.md R101). -/
theorem State.sequence_status_of_inside {s : State} {n : Nat} (h : n < s.launch.extent)
    (i : Instr) : (s.sequence i n).status = s.status := by
  rw [State.sequence_inside s h]

/-- An effect that writes one register changes nothing else, when the next pc is inside the
extent. -/
theorem State.registerFrame_writeReg_sequence {s : State} {n : Nat} (h : n < s.launch.extent)
    (a : Reg) (v : Word) (i : Instr) : RegisterFrame a s ((s.writeReg a v).sequence i n) := by
  have hregs : KeepsRegsBut a s ((s.writeReg a v).sequence i n) := fun r hr => by
    rw [State.sequence_reg, State.reg_writeReg_ne s hr]
  have hmem : KeepsMem s ((s.writeReg a v).sequence i n) := fun addr => by simp
  have hio : KeepsIo s ((s.writeReg a v).sequence i n) := ⟨by simp, by simp, by simp⟩
  exact ⟨hregs, by simp, hmem, hio, State.sequence_status_of_inside (s := s.writeReg a v) h i⟩

/-- Settles O12: Set is one register write and then the sequencer at pc + 3. -/
theorem setWritesTheValue : Obligations.SetWritesTheValue := by
  intro a b s
  refine ⟨rfl, fun hin => ⟨_, exec_set s a b, ?_, ?_, ?_⟩⟩
  · rw [State.sequence_reg, State.reg_writeReg_same]
  · exact State.sequence_pc_of_inside (s := s.writeReg a (s.val b)) hin _
  · exact State.registerFrame_writeReg_sequence hin a (s.val b) _

/-- A Push that leaves the core Running found room, and put its value on the tail
(42_register_and_stack.md R123). -/
theorem exec_push_running {s t : State} {a : Operand} (h : exec (.push a) s = .next t)
    (ht : t.status = .running) :
    t = { s with stack := s.stack ++ [(s.val a).toNat], pc := s.pc + 2 } := by
  obtain ⟨-, e⟩ | ⟨-, e⟩ := exec_push_cases s a
  · cases e.symm.trans h
    cases ht
  · cases e.symm.trans h
    obtain ⟨-, hin⟩ | ⟨-, hout⟩ :=
      State.sequence_cases { s with stack := s.stack ++ [(s.val a).toNat] } (.push a) (s.pc + 2)
    · exact hin
    · rw [hout, State.raise_status] at ht
      cases ht

/-- Settles O50: the entry the Push left on the tail is a Word, so the Pop neither underflows nor
faults on its range, and narrowing the entry gives the Word back. -/
theorem pushThenPopReturnsTheValue : Obligations.PushThenPopReturnsTheValue := by
  intro a r s t _ hpush ht hin
  have heq := exec_push_running hpush ht
  have hstack : t.stack = s.stack ++ [(s.val a).toNat] := by rw [heq]
  have hpc : t.pc + 2 = s.pc + 4 := by rw [heq]
  have hpop := exec_of_effect (.pop r s.stack _ hstack (s.val a).toNat_le)
  rw [hpc] at hpop
  refine ⟨_, hpop, ?_, ?_, ?_⟩
  · rw [State.sequence_reg, State.reg_writeReg_same, narrow_word]
  · rw [State.sequence_stack, State.writeReg_stack]
  · apply State.sequence_pc_of_inside
    rwa [State.writeReg_launch, exec_keeps_launch hpush]

end Sys2Proof.Machine

/-! PROOFS. Comparison (43_compare.md): the truth value of each comparator, and the register write
that Equal and GreaterThan make of it. -/

namespace Sys2Proof.Machine

/-- A truth value is written as exactly 1 or 0 (43_compare.md R130). -/
theorem truthWord_toNat (b : Bool) : (truthWord b).toNat = if b then 1 else 0 := by
  cases b
  · rfl
  · rfl

theorem isEqual_iff {v w : Word} : isEqual v w = true ↔ v = w := by
  rw [isEqual, decide_eq_true_iff, BitVec.toNat_inj]

theorem isGreater_iff {v w : Word} : isGreater v w = true ↔ w.toNat < v.toNat :=
  decide_eq_true_iff

/-- An instruction whose whole effect is one register write completes when its next pc is inside the
extent: the register holds the Word, the pc is that address, and nothing else changed. -/
theorem State.writeReg_sequence_of_inside {s : State} {n : Nat} (h : n < s.launch.extent)
    (a : Reg) (v : Word) (i : Instr) :
    ((s.writeReg a v).sequence i n).reg a = v ∧ ((s.writeReg a v).sequence i n).pc = n ∧
      RegisterFrame a s ((s.writeReg a v).sequence i n) := by
  refine ⟨?_, State.sequence_pc_of_inside (s := s.writeReg a v) h i,
    State.registerFrame_writeReg_sequence h a v i⟩
  rw [State.sequence_reg, State.reg_writeReg_same]

/-- Settles O15: Equal writes the truth value of the equality and sequences to pc + 4. -/
theorem equalWritesOneOrZero : Obligations.EqualWritesOneOrZero := by
  intro a b c s
  refine ⟨rfl, fun hin => ?_⟩
  obtain ⟨hreg, hpc, hframe⟩ := State.writeReg_sequence_of_inside hin a
    (truthWord (isEqual (s.val b) (s.val c))) (.equal a b c)
  exact ⟨_, exec_equal s a b c, by simp only [hreg, truthWord_toNat, isEqual_iff], hpc, hframe⟩

/-- Settles O16: GreaterThan writes the truth value of the strict order on unsigned values and
sequences to pc + 4. -/
theorem greaterThanIsUnsignedAndStrict : Obligations.GreaterThanIsUnsignedAndStrict := by
  intro a b c s
  refine ⟨rfl, fun hin => ?_⟩
  obtain ⟨hreg, hpc, hframe⟩ := State.writeReg_sequence_of_inside hin a
    (truthWord (isGreater (s.val b) (s.val c))) (.greaterThan a b c)
  exact ⟨_, exec_greaterThan s a b c, by simp only [hreg, truthWord_toNat, isGreater_iff], hpc,
    hframe⟩

end Sys2Proof.Machine

/-! PROOFS. The integer ALU (45_alu.md): what each operation computes on unsigned values, and the
register write each instruction makes of it. -/

namespace Sys2Proof.Machine

theorem aluAdd_toNat (v w : Word) : (aluAdd v w).toNat = (v.toNat + w.toNat) % 32768 :=
  narrow_toNat _

theorem aluMultiply_toNat (v w : Word) : (aluMultiply v w).toNat = (v.toNat * w.toNat) % 32768 :=
  narrow_toNat _

theorem aluAnd_toNat (v w : Word) : (aluAnd v w).toNat = v.toNat &&& w.toNat :=
  BitVec.toNat_and v w

theorem aluOr_toNat (v w : Word) : (aluOr v w).toNat = v.toNat ||| w.toNat :=
  BitVec.toNat_or v w

/-- The complement is below 32768 already, so the reduction leaves it (45_alu.md R155). -/
theorem aluNot_toNat (v : Word) : (aluNot v).toNat = 32767 - v.toNat := by
  have hsmall : 32767 - v.toNat < 32768 := by omega
  rw [aluNot, narrow_toNat, Nat.mod_eq_of_lt hsmall]

/-- 32767 - (32767 - v) is v, since a Word is at most 32767 (45_alu.md R155). -/
theorem aluNot_aluNot (v : Word) : aluNot (aluNot v) = v := by
  apply BitVec.eq_of_toNat_eq
  rw [aluNot_toNat, aluNot_toNat, Nat.sub_sub_self v.toNat_le]

/-- What an instruction answers when its meaning is one register write and then the sequencer at an
address inside the extent. -/
theorem exec_write_of_inside {s : State} {i : Instr} {a : Reg} {v : Word} {n : Nat}
    (hexec : exec i s = .next ((s.writeReg a v).sequence i n)) (hin : n < s.launch.extent) :
    ∃ t, exec i s = .next t ∧ t.reg a = v ∧ t.pc = n ∧ RegisterFrame a s t :=
  ⟨_, hexec, State.writeReg_sequence_of_inside hin a v i⟩

/-- Settles O20: Add writes the reduced sum and sequences to pc + 4. -/
theorem addIsTheSumModulo32768 : Obligations.AddIsTheSumModulo32768 := by
  intro a b c s
  refine ⟨rfl, fun hin => ?_⟩
  obtain ⟨t, hexec, hreg, hpc, hframe⟩ := exec_write_of_inside (exec_add s a b c) hin
  exact ⟨t, hexec, by rw [hreg, aluAdd_toNat], hpc, hframe⟩

/-- Settles O21: Multiply writes the reduced product and sequences to pc + 4. -/
theorem multiplyIsTheProductModulo32768 : Obligations.MultiplyIsTheProductModulo32768 := by
  intro a b c s
  refine ⟨rfl, fun hin => ?_⟩
  obtain ⟨t, hexec, hreg, hpc, hframe⟩ := exec_write_of_inside (exec_multiply s a b c) hin
  exact ⟨t, hexec, by rw [hreg, aluMultiply_toNat], hpc, hframe⟩

/-- Settles O23: And writes the conjunction and sequences to pc + 4. -/
theorem andIsBitwise : Obligations.AndIsBitwise := by
  intro a b c s
  refine ⟨rfl, fun hin => ?_⟩
  obtain ⟨t, hexec, hreg, hpc, hframe⟩ := exec_write_of_inside (exec_and s a b c) hin
  exact ⟨t, hexec, by rw [hreg, aluAnd_toNat], hpc, hframe⟩

/-- Settles O24: Or writes the disjunction and sequences to pc + 4. -/
theorem orIsBitwise : Obligations.OrIsBitwise := by
  intro a b c s
  refine ⟨rfl, fun hin => ?_⟩
  obtain ⟨t, hexec, hreg, hpc, hframe⟩ := exec_write_of_inside (exec_or s a b c) hin
  exact ⟨t, hexec, by rw [hreg, aluOr_toNat], hpc, hframe⟩

/-- Settles O25: Not writes the complement, which the second Not reads in the register; its next pc
is three words on, in the extent that the first Not kept. -/
theorem notIsTheComplementAndAnInvolution : Obligations.NotIsTheComplementAndAnInvolution := by
  intro a b s
  refine ⟨rfl, fun hin => ?_⟩
  obtain ⟨t, hexec, hreg, hpc, hframe⟩ := exec_write_of_inside (exec_not s a b) hin
  refine ⟨t, hexec, by rw [hreg, aluNot_toNat], hpc, hframe, fun d hin' => ?_⟩
  have hnext : t.pc + 3 < t.launch.extent := by rwa [hpc, exec_keeps_launch hexec]
  obtain ⟨u, hexec', hreg', -, -⟩ := exec_write_of_inside (exec_not t d (.reg a)) hnext
  exact ⟨u, hexec', by rw [hreg', State.val_reg, hreg, aluNot_aluNot]⟩

end Sys2Proof.Machine

/-! PROOFS. Input and output (47_io.md): a running core never holds, the output port only appends,
and no meaning depends on the output so far. -/

namespace Sys2Proof.Machine

/-- An instruction always answers a next state; a fault of the core is one (40_execution_cycle.md
section 1). -/
theorem exec_next (i : Instr) (s : State) : ∃ t, exec i s = .next t := by
  obtain ⟨r, -, e⟩ | ⟨-, e⟩ | ⟨u, n, -, e⟩ := exec_cases i s
  · exact ⟨_, e⟩
  · exact ⟨_, e⟩
  · exact ⟨_, e⟩

/-- Settles O37: a running core decodes and executes, or takes the decode fault, and each is a next
state; the other two statuses have no step. -/
theorem stepExistsExactlyWhenRunning : Obligations.StepExistsExactlyWhenRunning := by
  intro s
  constructor
  · rintro ⟨t, h⟩
    obtain ⟨hs, -⟩ := step_cases s h
    exact hs
  · intro hs
    cases hfetch : s.fetch with
    | ok found =>
      rw [step_of_fetch hs hfetch]
      exact exec_next found.1 s
    | error r => exact ⟨_, step_of_decode_fault hs hfetch⟩

/-! ## Another output so far -/

/-- The decode phase reads memory and the pc, not the output (30_encoding.md R78). -/
theorem State.fetch_withOut (s : State) (o : List Word) : { s with out := o }.fetch = s.fetch := rfl

/-- An operand's value is a literal or a register (40_execution_cycle.md R97). -/
theorem State.val_withOut (s : State) (o : List Word) (a : Operand) :
    { s with out := o }.val a = s.val a := by
  cases a with
  | lit w => rfl
  | reg r => rfl

/-- A computed Word depends on operand values alone. -/
theorem State.computed_withOut (s : State) (o : List Word) (i : Instr) :
    { s with out := o }.computed i = s.computed i := by
  simp only [State.computed, State.val_withOut]

/-- The sequencer reads the next pc and the extent, and keeps the output (40_execution_cycle.md
R101). -/
theorem State.sequence_withOut (s : State) (o : List Word) (i : Instr) (n : Nat) :
    { s with out := o }.sequence i n = { s.sequence i n with out := o } := by
  obtain ⟨hin, e⟩ | ⟨hout, e⟩ := s.sequence_cases i n
  · rw [e]
    exact State.sequence_inside { s with out := o } hin i
  · rw [e]
    exact State.sequence_outside { s with out := o } hout i

/-- What causes a fault of an instruction does not lie in the output. -/
theorem FaultOf.withOut {s : State} {i : Instr} {r : Raise} (h : FaultOf s i r) (o : List Word) :
    FaultOf { s with out := o } i r := by
  cases h with
  | pushFull a hfull => exact .pushFull a hfull
  | callFull a hfull => exact .callFull a hfull
  | popEmpty a hempty => exact .popEmpty a hempty
  | popRange a st v hstack hv => exact .popRange a st v hstack hv
  | moduloZero a b c hzero => exact .moduloZero a b c hzero
  | readOutside a b haddr => exact .readOutside a b haddr
  | readRange a b haddr hv => exact .readRange a b haddr hv
  | writeOutside a b haddr => exact .writeOutside a b haddr
  | inputEnd a hend => exact .inputEnd a hend
  | inputRange a c hcode hv => exact .inputRange a c hcode hv

/-- Out appends one Word, and every other effect leaves the output as it was and is the same effect
with any other output so far (47_io.md R170, R171). -/
theorem EffectOf.out_cases {s u : State} {i : Instr} {n : Nat} (h : EffectOf s i u n) :
    (∃ a, i = .out a ∧ u = s.outPort (s.val a) ∧ n = s.pc + 2) ∨
    (u.out = s.out ∧ ∀ o, EffectOf { s with out := o } i { u with out := o } n) := by
  cases h with
  | out a => exact .inl ⟨a, rfl, rfl, rfl⟩
  | noOp => exact .inr ⟨rfl, fun _ => .noOp⟩
  | jump a => exact .inr ⟨rfl, fun _ => .jump a⟩
  | jumpTrue a b => exact .inr ⟨rfl, fun _ => .jumpTrue a b⟩
  | jumpFalse a b => exact .inr ⟨rfl, fun _ => .jumpFalse a b⟩
  | write i a v hd hv =>
    exact .inr ⟨rfl, fun o => .write i a v hd ((s.computed_withOut o i).trans hv)⟩
  | modulo a b c hnz => exact .inr ⟨rfl, fun _ => .modulo a b c hnz⟩
  | read a b haddr hv => exact .inr ⟨rfl, fun _ => .read a b haddr hv⟩
  | push a hroom => exact .inr ⟨rfl, fun _ => .push a hroom⟩
  | call a hroom => exact .inr ⟨rfl, fun _ => .call a hroom⟩
  | pop a st v hstack hv => exact .inr ⟨rfl, fun _ => .pop a st v hstack hv⟩
  | ret st _ hstack => exact .inr ⟨rfl, fun _ => .ret st n hstack⟩
  | store a b haddr => exact .inr ⟨rfl, fun _ => .store a b haddr⟩
  | inp a c hcode hv => exact .inr ⟨rfl, fun _ => .inp a c hcode hv⟩

/-- An effect appends to the output, and appends the same to any other. -/
theorem EffectOf.appends {s u : State} {i : Instr} {n : Nat} (h : EffectOf s i u n)
    (o : List Word) :
    ∃ d, u.out = s.out ++ d ∧ EffectOf { s with out := o } i { u with out := o ++ d } n := by
  obtain ⟨a, rfl, rfl, rfl⟩ | ⟨hout, heffect⟩ := h.out_cases
  · exact ⟨[s.val a], rfl, .out a⟩
  · exact ⟨[], by rw [hout, List.append_nil], by rw [List.append_nil]; exact heffect o⟩

/-- An instruction appends to the output, and with any other output so far it does the same and
appends the same: a fault and a halt append nothing. -/
theorem exec_appends {s t : State} {i : Instr} (h : exec i s = .next t) (o : List Word) :
    ∃ d, t.out = s.out ++ d ∧ exec i { s with out := o } = .next { t with out := o ++ d } := by
  obtain ⟨r, hr, rfl⟩ | ⟨hhalts, rfl⟩ | ⟨u, n, hu, rfl⟩ := exec_next_cases h
  · refine ⟨[], (List.append_nil _).symm, ?_⟩
    rw [List.append_nil]
    exact exec_of_fault (hr.withOut o)
  · refine ⟨[], (List.append_nil _).symm, ?_⟩
    rw [List.append_nil]
    exact exec_of_halts (s := { s with out := o }) hhalts
  · obtain ⟨d, hd, hu'⟩ := hu.appends o
    refine ⟨d, by rw [State.sequence_out, hd], ?_⟩
    rw [exec_of_effect hu', State.sequence_withOut]

/-- Settles O42: the decode phase is the same with the other output, and so is what it leads to, a
decode fault, which appends nothing, or the instruction. -/
theorem outputOnlyAppendsAndIsNeverRead : Obligations.OutputOnlyAppendsAndIsNeverRead := by
  intro s t o h
  obtain ⟨hs, ⟨i, n, hfetch, hexec⟩ | ⟨r, hfetch, rfl⟩⟩ := step_cases s h
  · rw [step_of_fetch (s := { s with out := o }) hs hfetch]
    exact exec_appends hexec o
  · refine ⟨[], (List.append_nil _).symm, ?_⟩
    rw [List.append_nil]
    exact step_of_decode_fault (s := { s with out := o }) hs hfetch

end Sys2Proof.Machine

/-! PROOFS. Exceptions (60_exceptions.md): which instructions a fault reason belongs to, and the
exit code of a faulted run. -/

namespace Sys2Proof.Machine

/-- The sequencer turns Running into Faulted only by OutOfBounds (40_execution_cycle.md R101). -/
theorem State.sequence_reason_of_faulted {s : State} {i : Instr} {n : Nat} {rec : FaultRecord}
    (hs : s.status = .running) (h : (s.sequence i n).status = .faulted rec) :
    rec.reason = .outOfBounds := by
  obtain ⟨-, hin⟩ | ⟨-, hout⟩ := s.sequence_cases i n
  · rw [hin, hs] at h
    cases h
  · rw [hout, State.raise_status] at h
    cases h
    rfl

/-- For every reason but OutOfBounds, which the sequencer raises too, an instruction ends Faulted
with it exactly when a cause of `FaultOf` with that reason holds (60_exceptions.md R190). -/
theorem exec_faults_iff {i : Instr} {s : State} (hs : s.status = .running) {reason : FaultReason}
    (hreason : reason ≠ .outOfBounds) :
    (∃ t rec, exec i s = .next t ∧ t.status = .faulted rec ∧ rec.reason = reason) ↔
      ∃ r, FaultOf s i r ∧ r.reason = reason := by
  constructor
  · rintro ⟨t, rec, hexec, ht, rfl⟩
    obtain ⟨r, hr, rfl⟩ | ⟨-, rfl⟩ | ⟨u, n, hu, rfl⟩ := exec_next_cases hexec
    · cases ht
      exact ⟨r, hr, rfl⟩
    · cases ht
    · obtain ⟨-, hstatus, -⟩ := hu.keeps
      exact absurd (State.sequence_reason_of_faulted (hstatus.trans hs) ht) hreason
  · rintro ⟨r, hr, hrr⟩
    exact ⟨_, _, exec_of_fault hr, State.raise_status s r (some i), hrr⟩

/-- The one cause of StackUnderflow is a Pop on an empty stack (60_exceptions.md R184). -/
theorem faultOf_stackUnderflow_iff {i : Instr} {s : State} :
    (∃ r, FaultOf s i r ∧ r.reason = .stackUnderflow) ↔ (∃ a, i = .pop a) ∧ s.stack = [] := by
  constructor
  · rintro ⟨r, hr, hreason⟩
    cases hr with
    | popEmpty a hempty => exact ⟨⟨a, rfl⟩, hempty⟩
    | _ => cases hreason
  · rintro ⟨⟨a, rfl⟩, hempty⟩
    exact ⟨_, .popEmpty a hempty, rfl⟩

/-- The one cause of DivideByZero is a Modulo whose divisor is 0 (60_exceptions.md R185). -/
theorem faultOf_divideByZero_iff {i : Instr} {s : State} :
    (∃ r, FaultOf s i r ∧ r.reason = .divideByZero) ↔
      ∃ a b c, i = .modulo a b c ∧ (s.val c).toNat = 0 := by
  constructor
  · rintro ⟨r, hr, hreason⟩
    cases hr with
    | moduloZero a b c hzero => exact ⟨a, b, c, rfl, hzero⟩
    | _ => cases hreason
  · rintro ⟨a, b, c, rfl, hzero⟩
    exact ⟨_, .moduloZero a b c hzero, rfl⟩

/-- Settles O32: StackUnderflow is never the sequencer's, and its one cause is Pop's; a Return on an
empty stack is one of the halts. -/
theorem stackUnderflowIsPopOnEmptyStackOnly :
    Obligations.StackUnderflowIsPopOnEmptyStackOnly := by
  intro i s hs
  exact ⟨(exec_faults_iff hs (by decide)).trans faultOf_stackUnderflow_iff,
    fun hret hempty => ⟨_, exec_of_halts (.inr ⟨hret, hempty⟩), rfl⟩⟩

/-- Settles O33: DivideByZero is never the sequencer's, and its one cause is Modulo's. -/
theorem divideByZeroIsModuloByZeroOnly : Obligations.DivideByZeroIsModuloByZeroOnly := by
  intro i s hs
  exact (exec_faults_iff hs (by decide)).trans faultOf_divideByZero_iff

/-- Settles O60: the code of a faulted run is a successor, whatever the free value is. -/
theorem exitCodeIsZeroExactlyOnHalted : Obligations.ExitCodeIsZeroExactlyOnHalted :=
  ⟨rfl, fun rec => ⟨_, rfl, Nat.succ_ne_zero (Config.faultExit rec.reason)⟩⟩

end Sys2Proof.Machine

/-! PROOFS. The loader (70_reset_and_hazards.md R213): which byte counts it refuses, and the word
each pair of image bytes becomes. -/

namespace Sys2Proof.Machine

/-- Two bytes make a number below 2^16, so their word loses nothing (20_memory.md R50). -/
theorem cellOfBytes_toNat (lo hi : Byte) :
    (cellOfBytes lo hi).toNat = lo.toNat + 256 * hi.toNat := by
  have hlo := lo.isLt
  have hhi := hi.isLt
  rw [cellOfBytes, BitVec.toNat_ofNat, Nat.mod_eq_of_lt (by omega)]

/-- The loader makes the first two bytes the first word and loads the rest behind it. -/
theorem loadImage_cons_cons (lo hi : Byte) (rest : List Byte) :
    loadImage (lo :: hi :: rest) = (loadImage rest).map (cellOfBytes lo hi :: ·) := by
  rw [loadImage]
  cases loadImage rest <;> rfl

theorem loadImage_of_odd {bytes : List Byte} (h : bytes.length % 2 = 1) :
    loadImage bytes = .error .oddByteCount := by
  induction bytes using List.twoStepInduction with
  | nil => cases h
  | singleton b => rfl
  | cons_cons lo hi rest ih _ =>
    have hrest : rest.length % 2 = 1 := by simpa [Nat.add_assoc] using h
    rw [loadImage_cons_cons, ih hrest, Except.map]

theorem loadImage_of_even {bytes : List Byte} (h : bytes.length % 2 = 0) :
    ∃ image, loadImage bytes = .ok image := by
  induction bytes using List.twoStepInduction with
  | nil => exact ⟨[], rfl⟩
  | singleton b => cases h
  | cons_cons lo hi rest ih _ =>
    have hrest : rest.length % 2 = 0 := by simpa [Nat.add_assoc] using h
    obtain ⟨image, hload⟩ := ih hrest
    exact ⟨cellOfBytes lo hi :: image, by rw [loadImage_cons_cons, hload, Except.map]⟩

/-- Every image that loads from two bytes and a rest is their word before the rest's image. -/
theorem exists_of_loadImage_cons_cons {lo hi : Byte} {rest : List Byte} {image : List Cell}
    (h : loadImage (lo :: hi :: rest) = .ok image) :
    ∃ tail, loadImage rest = .ok tail ∧ image = cellOfBytes lo hi :: tail := by
  rw [loadImage_cons_cons] at h
  cases hload : loadImage rest with
  | error e =>
    rw [hload] at h
    cases h
  | ok tail =>
    rw [hload] at h
    cases h
    exact ⟨tail, rfl, rfl⟩

theorem length_of_loadImage {bytes : List Byte} {image : List Cell}
    (h : loadImage bytes = .ok image) : image.length = bytes.length / 2 := by
  induction bytes using List.twoStepInduction generalizing image with
  | nil =>
    cases h
    rfl
  | singleton b => cases h
  | cons_cons lo hi rest ih _ =>
    obtain ⟨tail, hload, rfl⟩ := exists_of_loadImage_cons_cons h
    have htail := ih hload
    simp only [List.length_cons]
    omega

/-- Word k of a loaded image is made of bytes 2k and 2k + 1. -/
theorem getElem?_of_loadImage {bytes : List Byte} {image : List Cell} {k : Nat} {lo hi : Byte}
    (h : loadImage bytes = .ok image) (hlo : bytes[2 * k]? = some lo)
    (hhi : bytes[2 * k + 1]? = some hi) : image[k]? = some (cellOfBytes lo hi) := by
  induction bytes using List.twoStepInduction generalizing image k with
  | nil => cases hlo
  | singleton b => cases h
  | cons_cons b₀ b₁ rest ih _ =>
    obtain ⟨tail, hload, rfl⟩ := exists_of_loadImage_cons_cons h
    cases k with
    | zero =>
      cases hlo
      cases hhi
      rfl
    | succ k =>
      rw [List.getElem?_cons_succ]
      exact ih hload hlo hhi

/-- Settles O57: an even count loads, and the image's length and words are those of the byte
pairs. -/
theorem loaderReadsLittleEndianWords : Obligations.LoaderReadsLittleEndianWords := by
  refine fun bytes => ⟨loadImage_of_odd, fun heven => ?_⟩
  obtain ⟨image, hload⟩ := loadImage_of_even heven
  exact ⟨image, hload, length_of_loadImage hload, fun k lo hi hlo hhi =>
    ⟨cellOfBytes lo hi, getElem?_of_loadImage hload hlo hhi, cellOfBytes_toNat lo hi⟩⟩

end Sys2Proof.Machine

/-! PROOFS. The encoding (30_encoding.md): the decoder read operand by operand against the tables of
WellFormed.lean, and the encoder as its inverse. -/

namespace Sys2Proof

theorem ok_bind {α β : Type} {x : Except Raise α} {a : α} (h : x = .ok a)
    (f : α → Except Raise β) : (x >>= f) = f a := by
  rw [h]
  rfl

/-! ## Encoding, then decoding -/

theorem encode_length (i : Instr) : (encode i).length = 1 + i.arity := by
  simp [encode, Instr.arity, Nat.add_comm]

/-- The opcode ids are far below 2^16, so their words lose nothing (30_encoding.md R75). -/
theorem opcodeWord_toNat (i : Instr) : (BitVec.ofNat 16 i.opcode).toNat = i.opcode := by
  cases i <;> rfl

/-- Where the words of an instruction stand, the decoder reads that instruction
(30_encoding.md section 3). -/
theorem decode_of_words {fetch : Nat → Except Raise Cell} {addr : Nat} {i : Instr}
    (h : ∀ k w, (encode i)[k]? = some w → fetch (addr + k) = .ok w) :
    decode fetch addr = .ok (i, addr + 1 + i.arity) := by
  have hop : ∀ k op, i.operands[k]? = some op → fetch (addr + (k + 1)) = .ok (encodeOperand op) :=
    fun k op hk => h (k + 1) _ (by simp [encode, hk])
  have hval : ∀ k op, i.operands[k]? = some op → valueAt fetch (addr + (k + 1)) = .ok op :=
    fun k op hk => valueAt_ok.mpr (hop k op hk)
  have hreg : ∀ k r, i.operands[k]? = some (.reg r) → regAt fetch (addr + (k + 1)) = .ok r :=
    fun k r hk => regAt_ok.mpr (hop k _ hk)
  have hopcode : fetch addr = .ok (BitVec.ofNat 16 i.opcode) := h 0 _ rfl
  unfold decode
  rw [ok_bind hopcode, opcodeWord_toNat]
  cases i with
  | halt | ret | noOp => rfl
  | push a | jump a | call a | out a => exact ok_bind (hval 0 a rfl) _
  | pop a | inp a => exact ok_bind (hreg 0 a rfl) _
  | set a b | not a b | readMemory a b =>
    exact (ok_bind (hreg 0 a rfl) _).trans (ok_bind (hval 1 b rfl) _)
  | jumpTrue a b | jumpFalse a b | writeMemory a b =>
    exact (ok_bind (hval 0 a rfl) _).trans (ok_bind (hval 1 b rfl) _)
  | equal a b c | greaterThan a b c | add a b c | multiply a b c | modulo a b c | and a b c
  | or a b c =>
    exact ((ok_bind (hreg 0 a rfl) _).trans (ok_bind (hval 1 b rfl) _)).trans
      (ok_bind (hval 2 c rfl) _)

/-- Settles O1, by the shapes of operand lists: each operand word resolves to the operand it
encodes. -/
theorem decodeOfEncodeIsTheInstruction : Obligations.DecodeOfEncodeIsTheInstruction :=
  fun _ _ _ h => decode_of_words h

/-! ## The decoder, operand by operand -/

/-- The operand at an address, by the kind of its position (30_encoding.md R74). -/
def operandAt (fetch : Nat → Except Raise Cell) (addr : Nat) : Kind → Except Raise Operand
  | .val => valueAt fetch addr
  | .reg => regAt fetch addr >>= fun r => .ok (.reg r)

/-- The operands of consecutive positions, in ascending order (30_encoding.md R79, R81). -/
def operandsAt (fetch : Nat → Except Raise Cell) : Nat → List Kind → Except Raise (List Operand)
  | _, [] => .ok []
  | addr, k :: ks => do
    let op ← operandAt fetch addr k
    let ops ← operandsAt fetch (addr + 1) ks
    return op :: ops

/-- What the rest of the decoder answers for opcode id `n` when the operands `pre` are read and
those of kinds `ks` stand from `a` on: the first fault met, or the instruction of that id with those
operands. -/
def DecodesRest (fetch : Nat → Except Raise Cell) (addr n : Nat) (pre : List Operand) (a : Nat)
    (ks : List Kind) (res : Except Raise (Instr × Nat)) : Prop :=
  (∃ r, operandsAt fetch a ks = .error r ∧ res = .error r) ∨
  (∃ i ops, operandsAt fetch a ks = .ok ops ∧ i.opcode = n ∧ i.operands = pre ++ ops ∧
    res = decoded addr i)

section
variable {fetch : Nat → Except Raise Cell} {addr n a : Nat} {pre : List Operand} {ks : List Kind}

theorem DecodesRest.done {i : Instr} (hn : i.opcode = n) (hops : i.operands = pre) :
    DecodesRest fetch addr n pre a [] (decoded addr i) :=
  .inr ⟨i, [], rfl, hn, hops.trans (List.append_nil pre).symm, rfl⟩

/-- One more operand read. -/
theorem DecodesRest.cons {k : Kind} {op : Operand} {res : Except Raise (Instr × Nat)}
    (hop : operandAt fetch a k = .ok op)
    (h : DecodesRest fetch addr n (pre ++ [op]) (a + 1) ks res) :
    DecodesRest fetch addr n pre a (k :: ks) res := by
  obtain ⟨r, hr, hres⟩ | ⟨i, ops, hops, hn, hargs, hres⟩ := h
  · exact .inl ⟨r, by rw [operandsAt, ok_bind hop, hr]; rfl, hres⟩
  · exact .inr ⟨i, op :: ops, by rw [operandsAt, ok_bind hop, hops]; rfl, hn,
      by rw [hargs, List.append_assoc]; rfl, hres⟩

theorem DecodesRest.value {f : Operand → Except Raise (Instr × Nat)}
    (h : ∀ op, DecodesRest fetch addr n (pre ++ [op]) (a + 1) ks (f op)) :
    DecodesRest fetch addr n pre a (.val :: ks) (valueAt fetch a >>= f) := by
  cases hop : valueAt fetch a with
  | error r => exact .inl ⟨r, by rw [operandsAt, operandAt, hop]; rfl, rfl⟩
  | ok op => exact .cons hop (h op)

theorem DecodesRest.register {f : Reg → Except Raise (Instr × Nat)}
    (h : ∀ r, DecodesRest fetch addr n (pre ++ [.reg r]) (a + 1) ks (f r)) :
    DecodesRest fetch addr n pre a (.reg :: ks) (regAt fetch a >>= f) := by
  cases hr : regAt fetch a with
  | error e => exact .inl ⟨e, by rw [operandsAt, operandAt, hr]; rfl, rfl⟩
  | ok r => exact .cons (ok_bind hr _) (h r)

end

/-- The decoder on a known opcode reads the operands its row of the table names and answers the
instruction of that row with them. -/
theorem decode_known {fetch : Nat → Except Raise Cell} {addr : Nat} {w : Cell} {ks : List Kind}
    (hw : fetch addr = .ok w) (hks : operandKinds w.toNat = some ks) :
    DecodesRest fetch addr w.toNat [] (addr + 1) ks (decode fetch addr) := by
  unfold decode
  rw [ok_bind hw]
  generalize w.toNat = n at hks
  unfold operandKinds at hks
  split at hks
  case h_1 | h_19 | h_22 => cases hks; exact .done rfl rfl
  case h_3 | h_7 | h_18 | h_20 => cases hks; exact .value fun _ => .done rfl rfl
  case h_4 | h_21 => cases hks; exact .register fun _ => .done rfl rfl
  case h_2 | h_15 | h_16 =>
    cases hks; exact .register fun _ => .value fun _ => .done rfl rfl
  case h_8 | h_9 | h_17 => cases hks; exact .value fun _ => .value fun _ => .done rfl rfl
  case h_5 | h_6 | h_10 | h_11 | h_12 | h_13 | h_14 =>
    cases hks
    exact .register fun _ => .value fun _ => .value fun _ => .done rfl rfl
  case h_23 => cases hks

theorem operandKinds_eq_none_iff {n : Nat} : operandKinds n = none ↔ 21 < n := by
  constructor
  · intro h
    by_contra hn
    interval_cases n <;> cases h
  · intro h
    obtain ⟨m, rfl⟩ : ∃ m, n = m + 22 := ⟨n - 22, by omega⟩
    rfl

/-- An opcode word above 21 is refused before any operand is fetched (30_encoding.md R73, R81). -/
theorem decode_unknown {fetch : Nat → Except Raise Cell} {addr : Nat} {w : Cell}
    (hw : fetch addr = .ok w) (h : 21 < w.toNat) :
    decode fetch addr = .error { reason := .unknownOpcode, detail := some w.toNat } := by
  unfold decode
  rw [ok_bind hw]
  obtain ⟨m, hm⟩ : ∃ m, w.toNat = m + 22 := ⟨w.toNat - 22, by omega⟩
  rw [hm]
  rfl

section
variable {fetch : Nat → Except Raise Cell} {addr a n : Nat} {ks : List Kind} {ops : List Operand}

theorem operandAt_ok {k : Kind} {op : Operand} (h : operandAt fetch a k = .ok op) :
    fetch a = .ok (encodeOperand op) := by
  cases k with
  | val => exact valueAt_ok.mp h
  | reg =>
    obtain ⟨r, hr, hop⟩ := bind_ok.mp h
    cases hop
    exact regAt_ok.mp hr

theorem operandsAt_cons_ok {k : Kind} : operandsAt fetch a (k :: ks) = .ok ops ↔
    ∃ op rest, operandAt fetch a k = .ok op ∧ operandsAt fetch (a + 1) ks = .ok rest ∧
      ops = op :: rest := by
  simp only [operandsAt, bind_ok, pure, Except.pure, Except.ok.injEq, eq_comm (b := ops),
    exists_and_left]

/-- Operands that are read are as many as the kinds, and their encodings are the words read. -/
theorem operandsAt_ok (h : operandsAt fetch a ks = .ok ops) :
    ops.length = ks.length ∧
      ∀ k op, ops[k]? = some op → fetch (a + k) = .ok (encodeOperand op) := by
  induction ks generalizing a ops with
  | nil =>
    cases h
    exact ⟨rfl, fun k op hk => by cases hk⟩
  | cons kind ks ih =>
    obtain ⟨op, rest, hop, hrest, rfl⟩ := operandsAt_cons_ok.mp h
    obtain ⟨hlen, hwords⟩ := ih hrest
    refine ⟨congrArg (· + 1) hlen, fun k op' hk => ?_⟩
    cases k with
    | zero =>
      cases hk
      exact operandAt_ok hop
    | succ k =>
      rw [show a + (k + 1) = a + 1 + k by omega]
      exact hwords k op' hk

/-- A decode that answers read a known opcode and its operands, which are the instruction's. -/
theorem decode_ok {i : Instr} (h : decode fetch addr = .ok (i, n)) :
    ∃ w ks, fetch addr = .ok w ∧ operandKinds w.toNat = some ks ∧ i.opcode = w.toNat ∧
      operandsAt fetch (addr + 1) ks = .ok i.operands := by
  obtain ⟨w, hw, -⟩ := bind_ok.mp h
  cases hks : operandKinds w.toNat with
  | none =>
    rw [decode_unknown hw (operandKinds_eq_none_iff.mp hks)] at h
    cases h
  | some ks =>
    obtain ⟨r, -, hres⟩ | ⟨j, ops, hops, hn, hargs, hres⟩ := decode_known hw hks
    · rw [hres] at h
      cases h
    · obtain ⟨rfl, -⟩ := decoded_ok.mp (hres.symm.trans h)
      exact ⟨w, ks, hw, hks, hn, by rw [hops, hargs, List.nil_append]⟩

/-- What decodes is its own encoding, wherever it stands (30_encoding.md section 4). -/
theorem decode_words {i : Instr} (h : decode fetch addr = .ok (i, n)) :
    ∀ k w, (encode i)[k]? = some w → fetch (addr + k) = .ok w := by
  obtain ⟨w, ks, hw, -, hopcode, hops⟩ := decode_ok h
  obtain ⟨-, hwords⟩ := operandsAt_ok hops
  intro k w' hk
  cases k with
  | zero =>
    obtain rfl : BitVec.ofNat 16 i.opcode = w' := by simpa [encode] using hk
    rw [hopcode, BitVec.ofNat_toNat, BitVec.setWidth_eq]
    exact hw
  | succ k =>
    obtain ⟨op, hop, rfl⟩ : ∃ op, i.operands[k]? = some op ∧ encodeOperand op = w' := by
      simpa [encode] using hk
    rw [show addr + (k + 1) = addr + 1 + k by omega]
    exact hwords k op hop

end

theorem fetchList_ok {ws : List Cell} {a : Nat} {w : Cell} :
    fetchList ws a = .ok w ↔ ws[a]? = some w := by
  unfold fetchList
  split
  next hw => rw [hw]; simp
  next hw => rw [hw]; simp

/-- Settles O2: the encoding is an initial part of the words, word by word. -/
theorem encodeOfDecodedWordsIsThoseWords : Obligations.EncodeOfDecodedWordsIsThoseWords := by
  intro ws i n h
  have hn : n = 1 + i.arity := by rw [decode_fall h, Nat.zero_add]
  have hinitial : encode i <+: ws := by
    rw [List.prefix_iff_getElem?]
    intro k hk
    have hword := decode_words h k _ (List.getElem?_eq_getElem hk)
    rwa [Nat.zero_add, fetchList_ok] at hword
  rw [hn, ← encode_length]
  exact ⟨rfl, hinitial.length_le, List.prefix_iff_eq_take.mp hinitial⟩

/-! ## Which words the decoder accepts, and what it refuses -/

section
variable {fetch : Nat → Except Raise Cell} {a : Nat} {ks : List Kind}

@[simp] theorem Kind.admits_val_iff {w : Cell} :
    Kind.admits .val w = true ↔ w.toNat ≤ 32775 := decide_eq_true_iff

@[simp] theorem Kind.admits_reg_iff {w : Cell} :
    Kind.admits .reg w = true ↔ 32768 ≤ w.toNat ∧ w.toNat ≤ 32775 := by
  simp [Kind.admits]

theorem Kind.toNat_le_of_admits {k : Kind} {w : Cell} (h : k.admits w = true) :
    w.toNat ≤ 32775 := by
  cases k with
  | val => exact Kind.admits_val_iff.mp h
  | reg => exact (Kind.admits_reg_iff.mp h).2

/-- Everything a position of a kind can answer when its word is read (30_encoding.md R71, R76,
R84). -/
theorem operandAt_word_cases {w : Cell} (hw : fetch a = .ok w) (k : Kind) :
    (k.admits w = true ∧ ∃ op, operandAt fetch a k = .ok op) ∨
    (32775 < w.toNat ∧
      operandAt fetch a k = .error { reason := .invalidOperand, detail := some w.toNat }) ∨
    (k = .reg ∧ w.toNat ≤ 32767 ∧
      operandAt fetch a k = .error { reason := .registerExpected, detail := some w.toNat }) := by
  have hval : valueAt fetch a = resolve w := ok_bind hw resolve
  have hreg : regAt fetch a = resolve w >>= expectReg w := ok_bind hw _
  rcases Nat.lt_or_ge 32775 w.toNat with hbig | hle
  · have hr := resolve_invalid hbig
    refine .inr (.inl ⟨hbig, ?_⟩)
    cases k with
    | val => exact hval.trans hr
    | reg => rw [operandAt, hreg, hr]; rfl
  · rcases Nat.lt_or_ge 32767 w.toNat with hlow | hlit
    · have hr := resolve_register (Nat.succ_le_of_lt hlow) hle
      refine .inl ?_
      cases k with
      | val => exact ⟨Kind.admits_val_iff.mpr hle, _, hval.trans hr⟩
      | reg =>
        refine ⟨Kind.admits_reg_iff.mpr ⟨hlow, hle⟩, ?_⟩
        rw [operandAt, hreg, hr]
        exact ⟨_, rfl⟩
    · have hr := resolve_literal hlit
      cases k with
      | val => exact .inl ⟨Kind.admits_val_iff.mpr hle, _, hval.trans hr⟩
      | reg =>
        refine .inr (.inr ⟨rfl, hlit, ?_⟩)
        rw [operandAt, hreg, hr]
        rfl

/-- A position answers an operand exactly when it admits the word (30_encoding.md R84). -/
theorem operandAt_ok_iff_admits {w : Cell} (hw : fetch a = .ok w) {k : Kind} :
    (∃ op, operandAt fetch a k = .ok op) ↔ k.admits w = true := by
  obtain ⟨hadm, hok⟩ | ⟨hbig, herr⟩ | ⟨rfl, hlit, herr⟩ := operandAt_word_cases hw k
  · exact ⟨fun _ => hadm, fun _ => hok⟩
  · rw [herr]
    exact ⟨nofun, fun h => absurd (Kind.toNat_le_of_admits h) (Nat.not_le.mpr hbig)⟩
  · rw [herr]
    exact ⟨nofun, fun h => by rw [Kind.admits_reg_iff] at h; omega⟩

/-- Words fit the kinds exactly when the operands of the kinds are read from them and none is left
over. -/
theorem operandsAdmitted_iff {ws : List Cell}
    (hws : ∀ k w, fetch (a + k) = .ok w ↔ ws[k]? = some w) :
    operandsAdmitted ks ws = true ↔
      (∃ ops, operandsAt fetch a ks = .ok ops) ∧ ks.length = ws.length := by
  induction ks generalizing a ws with
  | nil => cases ws <;> simp [operandsAdmitted, operandsAt]
  | cons k ks ih =>
    cases ws with
    | nil => simp [operandsAdmitted]
    | cons w ws =>
      have hw : fetch a = .ok w := (hws 0 w).mpr rfl
      have htail := ih (a := a + 1) (ws := ws) fun j v => by
        rw [Nat.add_right_comm, Nat.add_assoc]
        exact hws (j + 1) v
      rw [operandsAdmitted, Bool.and_eq_true, htail, ← operandAt_ok_iff_admits hw]
      simp [operandsAt_cons_ok, and_assoc]

/-- On a known opcode the decoder answers an instruction of arity `m` exactly when the operands of
its kinds are read and the kinds are `m`. -/
theorem decode_ok_arity_iff {addr m : Nat} {w : Cell} (hw : fetch addr = .ok w)
    (hks : operandKinds w.toNat = some ks) :
    (∃ i, decode fetch addr = .ok (i, addr + 1 + m)) ↔
      (∃ ops, operandsAt fetch (addr + 1) ks = .ok ops) ∧ ks.length = m := by
  obtain ⟨r, hr, hres⟩ | ⟨i, ops, hops, -, hargs, hres⟩ := decode_known hw hks
  · simp [hres, hr]
  · obtain ⟨hlen, -⟩ := operandsAt_ok hops
    have harity : i.arity = ks.length := by rw [Instr.arity, hargs, List.nil_append, hlen]
    rw [hres]
    simpa [decoded_ok, hops, harity] using eq_comm

end

/-- Settles O3: on a known opcode the decoder reads the operands of its kinds, and they are all the
words there are exactly when the length is that of the encoding. -/
theorem decodeAcceptsExactlyWellFormedWords :
    Obligations.DecodeAcceptsExactlyWellFormedWords := by
  intro ws
  cases ws with
  | nil => exact ⟨nofun, nofun⟩
  | cons op ws =>
    have hop : fetchList (op :: ws) 0 = .ok op := rfl
    cases hks : operandKinds op.toNat with
    | none =>
      have herr := decode_unknown hop (operandKinds_eq_none_iff.mp hks)
      simp [wordsWellFormed, hks, decodeWords, herr]
    | some ks =>
      have hws : ∀ k w, fetchList (op :: ws) (0 + 1 + k) = .ok w ↔ ws[k]? = some w := fun k w => by
        rw [fetchList_ok, Nat.zero_add, Nat.add_comm 1 k, List.getElem?_cons_succ]
      have hwf : wordsWellFormed (op :: ws) = operandsAdmitted ks ws := by
        simp only [wordsWellFormed, hks]
      have hlen : (op :: ws).length = 0 + 1 + ws.length := by
        rw [List.length_cons, Nat.zero_add, Nat.add_comm]
      rw [hwf, hlen, decodeWords, decode_ok_arity_iff hop hks]
      exact operandsAdmitted_iff hws

/-- Settles O5, by evaluating the decoder on the seven word sequences. -/
theorem exampleWordsDecode : Obligations.ExampleWordsDecode := by
  unfold Obligations.ExampleWordsDecode
  decide

end Sys2Proof

/-! PROOFS. The decode phase of a step (30_encoding.md R78, R81, 60_exceptions.md section 1): the
instruction whose words stand at the pc, and the faults of a fetch. -/

namespace Sys2Proof.Machine

theorem State.fetch_of_words {s : State} {i : Instr}
    (h : ∀ k w, (encode i)[k]? = some w → s.memRead (s.pc + k) = .ok w) :
    s.fetch = .ok (i, s.pc + 1 + i.arity) := decode_of_words h

/-- The words of a fetched instruction all lie inside the extent (20_memory.md R48). -/
theorem State.fetch_inside {s : State} {i : Instr} {n : Nat} (h : s.fetch = .ok (i, n)) :
    s.pc + i.arity < s.launch.extent := by
  have hk : i.arity < (encode i).length := by
    rw [encode_length]
    omega
  have hlast := decode_words h i.arity _ (List.getElem?_eq_getElem hk)
  obtain ⟨hin, -⟩ := State.memRead_ok.mp hlast
  exact hin

/-- Settles O6. -/
theorem stepRunsTheDecodedInstruction : Obligations.StepRunsTheDecodedInstruction :=
  fun _ _ _ hs h => ⟨decode_fall h, step_of_fetch hs h⟩

/-- Settles O7: the words at the pc decode to the instruction they encode. -/
theorem stepRunsTheEncodedWords : Obligations.StepRunsTheEncodedWords :=
  fun _ _ hs h => step_of_fetch hs (State.fetch_of_words h)

/-! ## Decode faults -/

/-- The faults reading an operand can raise with extent `n`, with what causes each
(60_exceptions.md R180). -/
inductive OperandFault (n : Nat) : Raise → Prop where
  | outside (addr : Nat) (h : n ≤ addr) :
      OperandFault n { reason := .outOfBounds, detail := some addr }
  | invalid (w : Nat) (h : 32775 < w) :
      OperandFault n { reason := .invalidOperand, detail := some w }
  | literal (w : Nat) (h : w ≤ 32767) :
      OperandFault n { reason := .registerExpected, detail := some w }

theorem operandAt_outside {s : State} {a : Nat} (h : s.launch.extent ≤ a) (k : Kind) :
    operandAt s.memRead a k = .error { reason := .outOfBounds, detail := some a } := by
  cases k with
  | val => simp [operandAt, valueAt, State.memRead_outside h, bind_error]
  | reg => simp [operandAt, regAt, State.memRead_outside h, bind_error]

theorem operandAt_error {s : State} {a : Nat} {k : Kind} {r : Raise}
    (h : operandAt s.memRead a k = .error r) : OperandFault s.launch.extent r := by
  rcases Nat.lt_or_ge a s.launch.extent with hin | hout
  · obtain ⟨-, op, hop⟩ | ⟨hbig, herr⟩ | ⟨-, hlit, herr⟩ :=
      operandAt_word_cases (State.memRead_inside hin) k
    · cases hop.symm.trans h
    · cases herr.symm.trans h
      exact .invalid _ hbig
    · cases herr.symm.trans h
      exact .literal _ hlit
  · cases (operandAt_outside hout k).symm.trans h
    exact .outside a hout

theorem operandsAt_error {s : State} {a : Nat} {ks : List Kind} {r : Raise}
    (h : operandsAt s.memRead a ks = .error r) : OperandFault s.launch.extent r := by
  induction ks generalizing a with
  | nil => cases h
  | cons k ks ih =>
    obtain herr | ⟨op, -, h⟩ := bind_error.mp h
    · exact operandAt_error herr
    · obtain herr | ⟨ops, -, h⟩ := bind_error.mp h
      · exact ih herr
      · cases h

/-- Everything a decode phase can refuse with: an opcode word above 21, or the fault of a fetch or
an operand (60_exceptions.md R180). -/
theorem State.fetch_error {s : State} {r : Raise} (h : s.fetch = .error r) :
    (∃ w, s.memRead s.pc = .ok w ∧ 21 < w.toNat ∧
      r = { reason := .unknownOpcode, detail := some w.toNat }) ∨
    OperandFault s.launch.extent r := by
  rcases Nat.lt_or_ge s.pc s.launch.extent with hin | hout
  · have hw := State.memRead_inside hin
    cases hks : operandKinds (s.mem.read s.pc).toNat with
    | none =>
      have hbig := operandKinds_eq_none_iff.mp hks
      cases (decode_unknown hw hbig).symm.trans h
      exact .inl ⟨_, hw, hbig, rfl⟩
    | some ks =>
      obtain ⟨r', hr, hres⟩ | ⟨i, ops, -, -, -, hres⟩ := decode_known hw hks
      · cases hres.symm.trans h
        exact .inr (operandsAt_error hr)
      · cases hres.symm.trans h
  · cases (decode_fetch_error (State.memRead_outside hout)).symm.trans h
    exact .inr (.outside s.pc hout)

/-- The first position that faults is the one reported (30_encoding.md R81). -/
theorem operandsAt_first_error {fetch : Nat → Except Raise Cell} {a k : Nat} {ks : List Kind}
    {kind : Kind} {r : Raise} (hk : ks[k]? = some kind)
    (herr : operandAt fetch (a + k) kind = .error r)
    (hearlier : ∀ j kj, j < k → ks[j]? = some kj → ∃ op, operandAt fetch (a + j) kj = .ok op) :
    operandsAt fetch a ks = .error r := by
  induction ks generalizing a k with
  | nil => cases hk
  | cons k₀ ks ih =>
    cases k with
    | zero =>
      cases hk
      exact bind_error.mpr (.inl herr)
    | succ k =>
      obtain ⟨op, hop⟩ := hearlier 0 k₀ (Nat.succ_pos k) rfl
      have hshift : ∀ j, a + 1 + j = a + (j + 1) := fun j => by omega
      have hrest : operandsAt fetch (a + 1) ks = .error r := by
        refine ih hk ((hshift k).symm ▸ herr) fun j kj hj hkj => ?_
        rw [hshift]
        exact hearlier (j + 1) kj (Nat.succ_lt_succ hj) hkj
      exact bind_error.mpr (.inr ⟨op, hop, bind_error.mpr (.inl hrest)⟩)

/-- A running core whose opcode is known reports the first operand position that faults. -/
theorem step_of_operand_fault {s : State} (hs : s.status = .running) {w : Cell}
    (hw : s.memRead s.pc = .ok w) {ks : List Kind} (hks : operandKinds w.toNat = some ks)
    {r : Raise} (h : operandsAt s.memRead (s.pc + 1) ks = .error r) :
    step s = .next (s.raise r none) := by
  obtain ⟨r', hr, hres⟩ | ⟨i, ops, hops, -⟩ := decode_known hw hks
  · cases hr.symm.trans h
    exact step_of_decode_fault hs hres
  · cases hops.symm.trans h

/-- An opcode word above 21 faults UnknownOpcode, with the word as detail (30_encoding.md R73). -/
theorem step_of_unknown_opcode {s : State} (hs : s.status = .running) {w : Cell}
    (hw : s.memRead s.pc = .ok w) (h : 21 < w.toNat) :
    step s = .next (s.raise { reason := .unknownOpcode, detail := some w.toNat } none) :=
  step_of_decode_fault hs (decode_unknown hw h)

/-- Settles O9: the decode checks are made in the order of R79, so the first one that fails decides
the record. -/
theorem firstDecodeFaultIsReported : Obligations.FirstDecodeFaultIsReported := by
  intro s hs
  refine ⟨fun hout => step_of_decode_fault hs (decode_fetch_error (State.memRead_outside hout)),
    fun w hw => ⟨step_of_unknown_opcode hs hw, ?_⟩⟩
  intro ks k kind hks hk hadmitted
  have hearlier : ∀ j kj, j < k → ks[j]? = some kj →
      ∃ op, operandAt s.memRead (s.pc + 1 + j) kj = .ok op := by
    intro j kj hj hkj
    obtain ⟨wj, hwj, hadm⟩ := hadmitted j kj hj hkj
    exact (operandAt_ok_iff_admits hwj).mpr hadm
  have hfirst : ∀ r, operandAt s.memRead (s.pc + 1 + k) kind = .error r →
      step s = .next (s.raise r none) := fun r herr =>
    step_of_operand_fault hs hw hks (operandsAt_first_error hk herr hearlier)
  refine ⟨fun hout => hfirst _ (operandAt_outside hout kind), fun wk hwk => ⟨?_, ?_⟩⟩
  · intro hbig
    obtain ⟨hadm, -⟩ | ⟨-, herr⟩ | ⟨-, hlit, -⟩ := operandAt_word_cases hwk kind
    · exact absurd (Kind.toNat_le_of_admits hadm) (Nat.not_le.mpr hbig)
    · exact hfirst _ herr
    · omega
  · rintro rfl hlit
    obtain ⟨hadm, -⟩ | ⟨hbig, -⟩ | ⟨-, -, herr⟩ := operandAt_word_cases hwk .reg
    · rw [Kind.admits_reg_iff] at hadm
      omega
    · omega
    · exact hfirst _ herr

/-- No instruction raises UnknownOpcode: it is a fault of decode alone (60_exceptions.md R181). -/
theorem FaultOf.reason_ne_unknownOpcode {s : State} {i : Instr} {r : Raise} (h : FaultOf s i r) :
    r.reason ≠ .unknownOpcode := by
  cases h <;> exact nofun

/-- Settles O8: neither an instruction nor an operand raises UnknownOpcode, so it comes from the
opcode word. -/
theorem unknownOpcodeExactlyAbove21 : Obligations.UnknownOpcodeExactlyAbove21 := by
  intro s w hs hw
  refine ⟨⟨?_, fun hbig => ⟨_, _, step_of_unknown_opcode hs hw hbig, rfl, rfl⟩⟩,
    fun hbig => ⟨_, step_of_unknown_opcode hs hw hbig, rfl⟩⟩
  rintro ⟨t, rec, hstep, ht, hreason⟩
  obtain ⟨-, ⟨i, n, -, hexec⟩ | ⟨r, hfetch, rfl⟩⟩ := step_cases s hstep
  · obtain ⟨r, hr, hrr⟩ := (exec_faults_iff hs (by decide)).mp ⟨t, rec, hexec, ht, hreason⟩
    exact absurd hrr hr.reason_ne_unknownOpcode
  · cases ht
    obtain ⟨w', hw', hbig, -⟩ | hoperand := State.fetch_error hfetch
    · cases hw'.symm.trans hw
      exact hbig
    · cases hoperand <;> cases hreason

/-! ## Fault records -/

/-- The record of an instruction's fault is a row of the table, at every pc. -/
theorem FaultOf.fitsTable {s : State} {i : Instr} {r : Raise} (h : FaultOf s i r) (pc : Nat) :
    FaultRecord.fitsTable s.launch.extent ⟨r.reason, pc, r.detail, some i⟩ := by
  cases h with
  | pushFull a hfull => exact ⟨⟨_, rfl⟩, .inl ⟨a, rfl⟩⟩
  | callFull a hfull => exact ⟨⟨_, rfl⟩, .inr ⟨a, rfl⟩⟩
  | popEmpty a hempty => exact ⟨rfl, a, rfl⟩
  | popRange a st v hstack hv => exact ⟨⟨v, rfl, hv⟩, .inr (.inl ⟨a, rfl⟩)⟩
  | moduloZero a b c hzero => exact ⟨rfl, a, b, c, rfl⟩
  | readOutside a b haddr => exact ⟨_, rfl, haddr⟩
  | readRange a b haddr hv => exact ⟨⟨_, rfl, hv⟩, .inl ⟨a, b, rfl⟩⟩
  | writeOutside a b haddr => exact ⟨_, rfl, haddr⟩
  | inputEnd a hend => exact ⟨rfl, a, rfl⟩
  | inputRange a c hcode hv => exact ⟨⟨c, rfl, hv⟩, .inr (.inr ⟨a, rfl⟩)⟩

/-- The record of a decode fault is a row of the table, at every pc; it carries no instruction. -/
theorem State.fitsTable_of_fetch_error {s : State} {r : Raise} (h : s.fetch = .error r) (pc : Nat) :
    FaultRecord.fitsTable s.launch.extent ⟨r.reason, pc, r.detail, none⟩ := by
  obtain ⟨w, -, hbig, rfl⟩ | hoperand := State.fetch_error h
  · exact ⟨⟨_, rfl, hbig⟩, rfl⟩
  · cases hoperand with
    | outside addr haddr => exact ⟨addr, rfl, haddr⟩
    | invalid w hbig => exact ⟨⟨w, rfl, hbig⟩, rfl⟩
    | literal w hlit => exact ⟨⟨w, rfl, hlit⟩, rfl⟩

/-- An instruction of a running core that ends Faulted raised one of its faults, or its effect was
handed on to a next pc outside the extent (60_exceptions.md section 2). -/
theorem exec_faulted_cases {s t : State} {i : Instr} {rec : FaultRecord} (hs : s.status = .running)
    (h : exec i s = .next t) (ht : t.status = .faulted rec) :
    (∃ r, FaultOf s i r ∧ t = s.raise r (some i)) ∨
    (∃ u n, EffectOf s i u n ∧ s.launch.extent ≤ n ∧
      t = u.raise { reason := .outOfBounds, detail := some n } (some i)) := by
  obtain hfault | ⟨-, rfl⟩ | ⟨u, n, hu, rfl⟩ := exec_next_cases h
  · exact .inl hfault
  · cases ht
  · obtain ⟨-, hstatus, hlaunch⟩ := hu.keeps
    obtain ⟨-, hin⟩ | ⟨hout, hraise⟩ := u.sequence_cases i n
    · rw [hin, hstatus, hs] at ht
      cases ht
    · exact .inr ⟨u, n, hu, hlaunch ▸ hout, hraise⟩

/-- Settles O34: a decode fault and an instruction's fault fit their rows, and the sequencer's is
OutOfBounds at the next pc. -/
theorem faultRecordsFitTheTable : Obligations.FaultRecordsFitTheTable := by
  intro s t rec hstep ht
  obtain ⟨hs, ⟨i, n, -, hexec⟩ | ⟨r, hfetch, rfl⟩⟩ := step_cases s hstep
  · obtain ⟨r, hr, rfl⟩ | ⟨u, n, hu, hout, rfl⟩ := exec_faulted_cases hs hexec ht
    · cases ht
      exact ⟨rfl, rfl, hr.fitsTable s.pc⟩
    · obtain ⟨hpc, -, -⟩ := hu.keeps
      cases ht
      exact ⟨hpc, hpc, n, rfl, hout⟩
  · cases ht
    exact ⟨rfl, rfl, State.fitsTable_of_fetch_error hfetch s.pc⟩

end Sys2Proof.Machine

/-! PROOFS. The invariant of the reachable states (10_state.md sections 3 to 7): launches meet it
and every step keeps it. -/

namespace Sys2Proof.Machine

/-- A core right after launch meets the invariant when its memory is canonical and inside an
admissible extent. -/
theorem State.fresh_inv {params : LaunchParams} {mem : Memory}
    (hextent : params.extent ≤ Config.maxExtent) (hwf : mem.wf = true)
    (hinside : ∀ c ∈ mem, c.1 < params.extent) : (State.fresh params mem).Inv where
  extent_le := hextent
  pc_inside := (Nat.eq_zero_or_pos params.extent).elim (fun h => .inr ⟨h, rfl⟩) .inl
  mem_wf := hwf
  mem_inside := hinside
  stack_entries := nofun
  stack_depth := fun d _ => Nat.zero_le d
  inpos_le := Nat.zero_le _
  fault_pc := nofun

/-- Settles O46: State.reset is a fresh core with the empty memory. -/
theorem resetMeetsTheInvariant : Obligations.ResetMeetsTheInvariant :=
  State.fresh_inv (Nat.le_refl _) Memory.wf_nil nofun

/-- Settles O47: the image's memory is canonical, and no longer than the extent. -/
theorem launchMeetsTheInvariant : Obligations.LaunchMeetsTheInvariant := by
  intro params image s h
  obtain ⟨⟨himage, hextent⟩, rfl⟩ := State.launched_ok_iff.mp h
  refine State.fresh_inv hextent (imageMemory_wf 0 image) fun c hc => ?_
  have hlt := imageMemory_lt hc
  omega

/-! ## Updates that keep the invariant -/

section
variable {s : State}

theorem State.Inv.raise (h : s.Inv) (r : Raise) (i : Option Instr) : (s.raise r i).Inv :=
  { h with fault_pc := fun rec hrec => by cases hrec; rfl }

theorem State.Inv.halt (h : s.Inv) : { s with status := .halted }.Inv :=
  { h with fault_pc := nofun }

theorem State.Inv.writeReg (h : s.Inv) (a : Reg) (v : Word) : (s.writeReg a v).Inv := { h with }

theorem State.Inv.outPort (h : s.Inv) (v : Word) : (s.outPort v).Inv := { h with }

theorem State.Inv.consumeInput (h : s.Inv) {c : Nat} (hcode : s.inPort = some c) :
    s.consumeInput.Inv := by
  obtain ⟨hin, -⟩ := State.inPort_some.mp hcode
  exact { h with inpos_le := hin }

/-- Running, the sequencer keeps the invariant: it moves the pc inside the extent or faults. -/
theorem State.Inv.sequence (h : s.Inv) (hs : s.status = .running) (i : Instr) (n : Nat) :
    (s.sequence i n).Inv := by
  obtain ⟨hin, e⟩ | ⟨-, e⟩ := s.sequence_cases i n
  · rw [e]
    exact { h with pc_inside := .inl hin, fault_pc := fun r hr => by cases hs.symm.trans hr }
  · rw [e]
    exact h.raise _ _

/-- A stack that is not full takes one more legal entry (10_state.md R33). -/
theorem State.Inv.push (h : s.Inv) (hroom : s.stackFull = false) {v : Nat}
    (hv : v ≤ 32767 ∨ (v = 32768 ∧ s.launch.extent = 32768)) :
    { s with stack := s.stack ++ [v] }.Inv := by
  refine { h with stack_entries := fun w hw => ?_, stack_depth := fun d hd => ?_ }
  · obtain hw | hw := List.mem_append.mp hw
    · exact h.stack_entries w hw
    · obtain rfl := List.mem_singleton.mp hw
      exact hv
  · have hfull : s.stackFull = decide (d ≤ s.stack.length) := State.stackFull_finite hd
    have hlt : ¬ d ≤ s.stack.length := by rwa [hfull, decide_eq_false_iff_not] at hroom
    simp only [List.length_append, List.length_singleton]
    omega

theorem State.Inv.pop (h : s.Inv) {st : List Nat} {v : Nat} (hstack : s.stack = st ++ [v]) :
    { s with stack := st }.Inv := by
  refine { h with stack_entries := fun w hw => ?_, stack_depth := fun d hd => ?_ }
  · exact h.stack_entries w (hstack ▸ List.mem_append_left [v] hw)
  · have hdepth := h.stack_depth d hd
    rw [hstack, List.length_append] at hdepth
    exact Nat.le_of_add_right_le hdepth

/-- A store inside the extent keeps memory canonical and inside it (10_state.md R36). -/
theorem State.Inv.store (h : s.Inv) {a : Nat} (ha : a < s.launch.extent) (w : Cell) :
    { s with mem := s.mem.write a w }.Inv := by
  refine { h with mem_wf := Memory.write_wf a w h.mem_wf, mem_inside := fun c hc => ?_ }
  obtain rfl | hc := Memory.mem_write hc
  · exact ha
  · exact h.mem_inside c hc

/-- Every effect of an instruction whose words lie inside the extent keeps the invariant. A Call's
operand word lies there, so the pushed address pc + 2 is at most N. -/
theorem EffectOf.inv {u : State} {i : Instr} {n : Nat} (hu : EffectOf s i u n) (h : s.Inv)
    (hfetch : s.pc + i.arity < s.launch.extent) : u.Inv := by
  cases hu with
  | noOp | jump a | jumpTrue a b | jumpFalse a b => exact h
  | write i a v hd hv => exact h.writeReg a v
  | modulo a b c hnz => exact h.writeReg a _
  | read a b haddr hv => exact h.writeReg a _
  | push a hroom => exact h.push hroom (.inl (s.val a).toNat_le)
  | call a hroom =>
    have hextent : s.launch.extent ≤ 32768 := h.extent_le
    have hcall : s.pc + 1 < s.launch.extent := hfetch
    exact h.push hroom (by omega)
  | pop a st v hstack hv => exact (h.pop hstack).writeReg a _
  | ret st v hstack => exact h.pop hstack
  | store a b haddr => exact h.store haddr _
  | out a => exact h.outPort _
  | inp a c hcode hv => exact (h.consumeInput hcode).writeReg a _

end

/-- Settles O48: a decode fault, an instruction's fault and a halt change the status only; otherwise
the effect keeps the invariant, and then the sequencer does. -/
theorem stepKeepsTheInvariant : Obligations.StepKeepsTheInvariant := by
  intro s t h hstep
  obtain ⟨hs, ⟨i, n, hfetch, hexec⟩ | ⟨r, -, rfl⟩⟩ := step_cases s hstep
  · obtain ⟨r, -, rfl⟩ | ⟨-, rfl⟩ | ⟨u, next, hu, rfl⟩ := exec_next_cases hexec
    · exact h.raise r _
    · exact h.halt
    · obtain ⟨-, hstatus, -⟩ := hu.keeps
      exact (hu.inv h (State.fetch_inside hfetch)).sequence (hstatus.trans hs) i next
  · exact h.raise r none

/-- A sequencer that does not fault moved the pc inside the extent (40_execution_cycle.md R101). -/
theorem State.sequence_of_not_faulted {s : State} {i : Instr} {n : Nat}
    (h : (s.sequence i n).status.isFaulted = false) :
    n < s.launch.extent ∧ s.sequence i n = { s with pc := n } := by
  obtain hin | ⟨-, e⟩ := s.sequence_cases i n
  · exact hin
  · rw [e] at h
    cases h

theorem State.sequence_of_running {s : State} {i : Instr} {n : Nat}
    (h : (s.sequence i n).status = .running) :
    n < s.launch.extent ∧ s.sequence i n = { s with pc := n } :=
  State.sequence_of_not_faulted (by rw [h]; rfl)

/-- Settles O44: a step that leaves the core Running went through the sequencer, and a launched core
meets the invariant. -/
theorem runningPcStaysInTheExtent : Obligations.RunningPcStaysInTheExtent := by
  refine ⟨fun s t hstep ht => ?_,
    fun params image s h => (launchMeetsTheInvariant params image s h).pc_inside⟩
  obtain ⟨-, ⟨i, n, -, hexec⟩ | ⟨r, -, rfl⟩⟩ := step_cases s hstep
  · obtain ⟨r, -, rfl⟩ | ⟨-, rfl⟩ | ⟨u, next, -, rfl⟩ := exec_next_cases hexec
    · cases ht
    · cases ht
    · obtain ⟨hin, e⟩ := State.sequence_of_running ht
      rw [e]
      exact hin
  · cases ht

/-! ## Launches -/

/-- Settles O56: a launched core is fresh, with the image's memory, whose reads are the image and
zeros. -/
theorem launchPlacesTheImage : Obligations.LaunchPlacesTheImage := by
  intro params image
  have hread : ∀ k, (imageMemory 0 image).read k = (image[k]?).getD 0 := fun k => by
    simpa using imageMemory_read 0 image k
  constructor
  · simp only [State.launched_ok_iff, exists_and_left, exists_eq, and_true]
    exact Iff.rfl
  · intro s h
    obtain ⟨⟨himage, -⟩, rfl⟩ := State.launched_ok_iff.mp h
    refine ⟨fun k w hk => ?_, fun k hlow hhigh => ?_, fun k hk => State.memRead_outside hk,
      fun r => ?_, rfl, rfl, rfl, rfl⟩
    · obtain ⟨hlt, -⟩ := List.getElem?_eq_some_iff.mp hk
      refine State.memRead_ok.mpr ⟨Nat.lt_of_lt_of_le hlt himage, ?_⟩
      exact (hread k).trans (by rw [hk]; rfl)
    · refine State.memRead_ok.mpr ⟨hhigh, ?_⟩
      exact (hread k).trans (by rw [List.getElem?_eq_none hlow]; rfl)
    · simp [State.reg, State.fresh]

/-- Settles O58: the pc is 0 and the extent too, so the opcode fetch is outside it. -/
theorem emptyMemoryFaultsAtTheFirstFetch : Obligations.EmptyMemoryFaultsAtTheFirstFetch := by
  intro params s hextent h
  obtain ⟨-, rfl⟩ := State.launched_ok_iff.mp h
  have hout : (State.fresh params (imageMemory 0 [])).launch.extent ≤ 0 := Nat.le_of_eq hextent
  exact step_of_decode_fault rfl (decode_fetch_error (State.memRead_outside hout))

end Sys2Proof.Machine

/-! PROOFS. What an instruction changes (10_state.md sections 2, 5 and 6): one register, one stack
entry or one cell. -/

namespace Sys2Proof.Machine

section
variable {s u : State} {i : Instr} {n : Nat}

theorem State.keepsRegsBut_writeReg (s : State) (a : Reg) (v : Word) :
    KeepsRegsBut a s (s.writeReg a v) := fun _ hr => s.reg_writeReg_ne hr v

/-- The instructions that compute a Word from their operands have a Reg position
(30_encoding.md R75). -/
theorem State.opcode_mem_of_computed {v : Word} (h : s.computed i = some v) :
    i.opcode ∈ [1, 3, 4, 5, 9, 10, 11, 12, 13, 14, 15, 20] := by
  cases i with
  | set | equal | greaterThan | add | multiply | and | or | not => simp [Instr.opcode]
  | _ => cases h

/-- An effect keeps every register, or writes only the register its first operand names, as one of
the twelve opcodes with a Reg position (10_state.md R22). -/
theorem EffectOf.regs_cases (h : EffectOf s i u n) :
    KeepsRegs s u ∨ ∃ a, i.operands.head? = some (.reg a) ∧
      i.opcode ∈ [1, 3, 4, 5, 9, 10, 11, 12, 13, 14, 15, 20] ∧ KeepsRegsBut a s u := by
  cases h with
  | noOp | jump | jumpTrue | jumpFalse | push | call | ret | store | out => exact .inl fun _ => rfl
  | write i a v hd hv =>
    exact .inr ⟨a, hd, State.opcode_mem_of_computed hv, s.keepsRegsBut_writeReg a v⟩
  | modulo a b c hnz =>
    exact .inr ⟨a, rfl, by simp [Instr.opcode], s.keepsRegsBut_writeReg a _⟩
  | read a b haddr hv =>
    exact .inr ⟨a, rfl, by simp [Instr.opcode], s.keepsRegsBut_writeReg a _⟩
  | pop a st v hstack hv =>
    exact .inr ⟨a, rfl, by simp [Instr.opcode],
      State.keepsRegsBut_writeReg { s with stack := st } a _⟩
  | inp a c hcode hv =>
    exact .inr ⟨a, rfl, by simp [Instr.opcode], s.consumeInput.keepsRegsBut_writeReg a _⟩

/-- Push and Call add one entry at the tail, Pop and Return take one, and every other effect keeps
the stack (10_state.md R34). -/
theorem EffectOf.stack_cases (h : EffectOf s i u n) :
    u.stack = s.stack ∨
    (((∃ a, i = .push a) ∨ ∃ a, i = .call a) ∧ ∃ v, u.stack = s.stack ++ [v]) ∨
    (((∃ a, i = .pop a) ∨ i = .ret) ∧ ∃ v, s.stack = u.stack ++ [v]) := by
  cases h with
  | push a hroom => exact .inr (.inl ⟨.inl ⟨a, rfl⟩, _, rfl⟩)
  | call a hroom => exact .inr (.inl ⟨.inr ⟨a, rfl⟩, _, rfl⟩)
  | pop a st v hstack hv => exact .inr (.inr ⟨.inl ⟨a, rfl⟩, v, hstack⟩)
  | ret st _ hstack => exact .inr (.inr ⟨.inr rfl, n, hstack⟩)
  | _ => exact .inl rfl

/-- WriteMemory sets one cell, and every other effect keeps memory (20_memory.md section 1). -/
theorem EffectOf.mem_cases (h : EffectOf s i u n) :
    u.mem = s.mem ∨ ∃ a b, i = .writeMemory a b ∧ s.address a < s.launch.extent ∧
      u.mem = s.mem.write (s.address a) (zext16 (s.val b)) := by
  cases h with
  | store a b haddr => exact .inr ⟨a, b, rfl, haddr, rfl⟩
  | _ => exact .inl rfl

end

/-- Settles O39: only an effect writes a register, and the sequencer keeps the register file. -/
theorem onlyTheDestinationRegisterChanges : Obligations.OnlyTheDestinationRegisterChanges := by
  intro s t r hstep hne
  obtain ⟨-, ⟨i, n, hfetch, hexec⟩ | ⟨e, -, rfl⟩⟩ := step_cases s hstep
  · obtain ⟨e, -, rfl⟩ | ⟨-, rfl⟩ | ⟨u, next, hu, rfl⟩ := exec_next_cases hexec
    · exact absurd rfl hne
    · exact absurd rfl hne
    · simp only [State.sequence_reg] at hne ⊢
      obtain hkeeps | ⟨a, hhead, hopcode, hkeeps⟩ := hu.regs_cases
      · exact absurd (hkeeps r) hne
      · obtain rfl : r = a := by
          by_contra hra
          exact hne (hkeeps r hra)
        exact ⟨i, n, hfetch, hhead, hopcode, hkeeps⟩
  · exact absurd rfl hne

/-- Settles O40: a fault and a halt keep the stack, and so does the sequencer. -/
theorem onlyFourInstructionsTouchTheStack : Obligations.OnlyFourInstructionsTouchTheStack := by
  intro i s t hexec
  obtain ⟨r, -, rfl⟩ | ⟨-, rfl⟩ | ⟨u, n, hu, rfl⟩ := exec_next_cases hexec
  · exact .inl rfl
  · exact .inl rfl
  · rw [State.sequence_stack]
    exact hu.stack_cases

/-- What an address reads as depends on memory and the extent alone. -/
theorem State.memRead_congr {s t : State} (hmem : t.mem = s.mem) (hlaunch : t.launch = s.launch)
    (addr : Nat) : t.memRead addr = s.memRead addr := by
  unfold State.memRead
  rw [hmem, hlaunch]

/-- After a store into canonical memory the cell reads the value stored and every other address
reads as before (20_memory.md R56). -/
theorem State.memRead_of_store {s t : State} {a : Nat} {w : Cell} (hwf : s.mem.wf = true)
    (ha : a < s.launch.extent) (hmem : t.mem = s.mem.write a w) (hlaunch : t.launch = s.launch) :
    t.memRead a = .ok w ∧ ∀ addr, addr ≠ a → t.memRead addr = s.memRead addr := by
  refine ⟨State.memRead_ok.mpr ⟨hlaunch ▸ ha, ?_⟩, fun addr hne => ?_⟩
  · rw [hmem, Memory.read_write_same a w hwf]
  · unfold State.memRead
    rw [hmem, hlaunch, Memory.read_write_ne hne]

/-- Settles O41: the one effect that changes memory is a store at the address of its first
operand. -/
theorem onlyWriteMemoryChangesMemory : Obligations.OnlyWriteMemoryChangesMemory := by
  intro s t addr hwf hstep hne
  have hlaunch := step_keeps_launch hstep
  obtain ⟨-, ⟨i, n, hfetch, hexec⟩ | ⟨e, -, rfl⟩⟩ := step_cases s hstep
  · obtain ⟨e, -, rfl⟩ | ⟨-, rfl⟩ | ⟨u, next, hu, rfl⟩ := exec_next_cases hexec
    · exact absurd rfl hne
    · exact absurd rfl hne
    · obtain hmem | ⟨a, b, rfl, ha, hmem⟩ := hu.mem_cases
      · have hmem' := (State.sequence_mem u i next).trans hmem
        exact absurd (State.memRead_congr hmem' hlaunch addr) hne
      · obtain ⟨hsame, hother⟩ :=
          State.memRead_of_store hwf ha ((State.sequence_mem u _ next).trans hmem) hlaunch
        obtain rfl : addr = s.address a := by
          by_contra haddr
          exact hne (hother addr haddr)
        exact ⟨a, b, n, hfetch, rfl, hsame⟩
  · exact absurd rfl hne

/-- Settles O59: a clean step decoded, since a decode fault ends Faulted, and the hook reports the
steps that do not fault. -/
theorem traceReportsExactlyTheCleanSteps : Obligations.TraceReportsExactlyTheCleanSteps := by
  intro s
  constructor
  · rintro t ⟨hstep, hclean⟩
    obtain ⟨-, ⟨i, n, hfetch, -⟩ | ⟨r, -, rfl⟩⟩ := step_cases s hstep
    · exact ⟨i, n, hfetch, by simp [traceStep, hfetch, hstep, hclean]⟩
    · cases hclean
  · intro hnone
    unfold traceStep
    split
    next i n t hfetch hstep =>
      have hfaulted : t.status.isFaulted = true := by
        by_contra h
        exact hnone t ⟨hstep, Bool.eq_false_of_not_eq_true h⟩
      rw [if_pos hfaulted]
    next => rfl

end Sys2Proof.Machine

/-! PROOFS. The launch parameters (00_scope.md section 4): what an instruction does under another
extent or stack depth. -/

namespace Sys2Proof.Machine

/-- The same state under other launch parameters. -/
def State.withLaunch (s : State) (p : LaunchParams) : State := { s with launch := p }

theorem State.withExtent_eq (s : State) (n : Nat) :
    s.withExtent n = s.withLaunch { s.launch with extent := n } := rfl

theorem State.withUnboundedStack_eq (s : State) :
    s.withUnboundedStack = s.withLaunch { s.launch with stackDepth := none } := rfl

/-- The address of an instruction's own memory access, for the two that make one
(46_memory_access.md R167). -/
def State.access (s : State) : Instr → Option Nat
  | .readMemory _ b => some (s.address b)
  | .writeMemory a _ => some (s.address a)
  | _ => none

section
variable {s u : State} {i : Instr} {n : Nat}

/-- An effect is an access inside the extent, where it is an access (20_memory.md R48, R49). -/
theorem EffectOf.access_inside (h : EffectOf s i u n) :
    ∀ addr ∈ s.access i, addr < s.launch.extent := by
  intro addr haddr
  cases h with
  | read a b hin hv => cases haddr; exact hin
  | store a b hin => cases haddr; exact hin
  | write i a v hd hv =>
    cases i with
    | readMemory | writeMemory => cases hv
    | _ => cases haddr
  | _ => cases haddr

/-- The launch parameters bear on an effect by the next code of INPUT, by room on the stack and by
the extent at its memory access; where these allow it, the effect is the same under others. -/
theorem EffectOf.withLaunch {p : LaunchParams} (h : EffectOf s i u n)
    (hinput : p.input = s.launch.input)
    (hroom : s.stackFull = false → (s.withLaunch p).stackFull = false)
    (haccess : ∀ addr ∈ s.access i, addr < p.extent) :
    EffectOf (s.withLaunch p) i (u.withLaunch p) n := by
  cases h with
  | noOp => exact .noOp
  | jump a => exact .jump a
  | jumpTrue a b => exact .jumpTrue a b
  | jumpFalse a b => exact .jumpFalse a b
  | write i a v hd hv => exact .write i a v hd hv
  | modulo a b c hnz => exact .modulo a b c hnz
  | read a b hin hv => exact .read a b (haccess _ rfl) hv
  | push a hfull => exact .push a (hroom hfull)
  | call a hfull => exact .call a (hroom hfull)
  | pop a st v hstack hv => exact .pop a st v hstack hv
  | ret st _ hstack => exact .ret st n hstack
  | store a b hin => exact .store a b (haccess _ rfl)
  | out a => exact .out a
  | inp a c hcode hv =>
    have hcode' : (s.withLaunch p).inPort = some c :=
      (congrArg (fun input : List Nat => input[s.inpos]?) hinput).trans hcode
    exact .inp a c hcode' hv

theorem EffectOf.withExtent (h : EffectOf s i u n) {m : Nat}
    (haccess : ∀ addr ∈ s.access i, addr < m) :
    EffectOf (s.withExtent m) i (u.withExtent m) n := by
  obtain ⟨-, -, hlaunch⟩ := h.keeps
  rw [State.withExtent_eq u, hlaunch]
  exact h.withLaunch rfl id haccess

/-- An effect whose next pc lies inside another extent, and its access too, completes there. -/
theorem exec_withExtent_of_effect (h : EffectOf s i u n) {m : Nat}
    (haccess : ∀ addr ∈ s.access i, addr < m) (hn : n < m) :
    exec i (s.withExtent m) = .next { u.withExtent m with pc := n } := by
  rw [exec_of_effect (h.withExtent haccess), State.sequence_inside (u.withExtent m) hn]

end

/-- Settles O35: the sequencer's fault comes after an effect, and a memory that holds the next pc
holds the effect's access too. -/
theorem faultsArePreciseOrKeepTheEffect : Obligations.FaultsArePreciseOrKeepTheEffect := by
  intro i s t rec hs hexec ht
  obtain ⟨r, -, rfl⟩ | ⟨u, n, hu, hout, rfl⟩ := exec_faulted_cases hs hexec ht
  · cases ht
    exact ⟨rfl, rfl, .inl rfl⟩
  · obtain ⟨hpc, hstatus, -⟩ := hu.keeps
    cases ht
    refine ⟨hpc, rfl, .inr ⟨n, hout, rfl, rfl, hpc, fun m hm => ?_⟩⟩
    have haccess : ∀ addr ∈ s.access i, addr < m := fun addr h =>
      Nat.lt_trans (hu.access_inside addr h) (Nat.lt_of_le_of_lt hout hm)
    rw [exec_withExtent_of_effect hu haccess hm, ← hs, ← hstatus]
    rfl

/-- Settles O36: the effect in the larger memory is one in this memory, where the sequencer
faults. -/
theorem nextPcOutsideTheExtentFaults : Obligations.NextPcOutsideTheExtentFaults := by
  intro i s t n hs hexec ht hout hread hwrite
  obtain ⟨r, -, rfl⟩ | ⟨-, rfl⟩ | ⟨u, next, hu, rfl⟩ := exec_next_cases hexec
  · cases ht
  · cases ht
  · obtain ⟨-, e⟩ := State.sequence_of_running ht
    rw [e] at hout ⊢
    have haccess : ∀ addr ∈ (s.withExtent n).access i, addr < s.launch.extent := by
      intro addr haddr
      cases i with
      | readMemory a b => cases haddr; exact hread a b rfl
      | writeMemory a b => cases haddr; exact hwrite a b rfl
      | _ => cases haddr
    have hu' : EffectOf s i (u.withExtent s.launch.extent) next := hu.withExtent haccess
    obtain ⟨hpc, -, -⟩ := hu'.keeps
    rw [exec_of_effect hu', State.sequence_outside (u.withExtent s.launch.extent) hout, ← hpc]
    rfl

/-- A larger memory holds the words of a fetched instruction too. -/
theorem State.fetch_withExtent {s : State} {i : Instr} {k n : Nat} (h : s.fetch = .ok (i, k))
    (hn : s.launch.extent ≤ n) : (s.withExtent n).fetch = .ok (i, k) := by
  rw [decode_fall h]
  refine State.fetch_of_words fun j w hj => ?_
  obtain ⟨hin, hw⟩ := State.memRead_ok.mp (decode_words h j w hj)
  exact State.memRead_ok.mpr ⟨Nat.lt_of_lt_of_le hin hn, hw⟩

/-- Settles O53: a clean step halts, or its effect completes inside the smaller extent. -/
theorem largerMemoryDoesNotChangeACleanStep : Obligations.LargerMemoryDoesNotChangeACleanStep := by
  rintro s t n ⟨hstep, hclean⟩ hn
  refine ⟨?_, hclean⟩
  obtain ⟨hs, ⟨i, k, hfetch, hexec⟩ | ⟨r, -, rfl⟩⟩ := step_cases s hstep
  · rw [step_of_fetch (s := s.withExtent n) hs (State.fetch_withExtent hfetch hn)]
    obtain ⟨r, -, rfl⟩ | ⟨hhalts, rfl⟩ | ⟨u, next, hu, rfl⟩ := exec_next_cases hexec
    · cases hclean
    · exact exec_of_halts (s := s.withExtent n) hhalts
    · obtain ⟨hin, e⟩ := State.sequence_of_not_faulted hclean
      obtain ⟨-, -, hlaunch⟩ := hu.keeps
      rw [hlaunch] at hin
      rw [e]
      exact exec_withExtent_of_effect hu
        (fun addr h => Nat.lt_of_lt_of_le (hu.access_inside addr h) hn) (Nat.lt_of_lt_of_le hin hn)
  · cases hclean

/-! ## The unbounded stack -/

/-- A fault of an instruction other than StackOverflow is one with the unbounded stack too. -/
theorem FaultOf.withUnboundedStack {s : State} {i : Instr} {r : Raise} (h : FaultOf s i r) :
    r.reason = .stackOverflow ∨ FaultOf s.withUnboundedStack i r := by
  cases h with
  | pushFull a hfull => exact .inl rfl
  | callFull a hfull => exact .inl rfl
  | popEmpty a hempty => exact .inr (.popEmpty a hempty)
  | popRange a st v hstack hv => exact .inr (.popRange a st v hstack hv)
  | moduloZero a b c hzero => exact .inr (.moduloZero a b c hzero)
  | readOutside a b haddr => exact .inr (.readOutside a b haddr)
  | readRange a b haddr hv => exact .inr (.readRange a b haddr hv)
  | writeOutside a b haddr => exact .inr (.writeOutside a b haddr)
  | inputEnd a hend => exact .inr (.inputEnd a hend)
  | inputRange a c hcode hv => exact .inr (.inputRange a c hcode hv)

/-- The unbounded stack is never full, so it has every effect a finite one has. -/
theorem EffectOf.withUnboundedStack {s u : State} {i : Instr} {n : Nat} (h : EffectOf s i u n) :
    EffectOf s.withUnboundedStack i u.withUnboundedStack n := by
  obtain ⟨-, -, hlaunch⟩ := h.keeps
  rw [State.withUnboundedStack_eq u, hlaunch]
  exact h.withLaunch rfl (fun _ => State.stackFull_unbounded rfl) h.access_inside

/-- The sequencer does not read the stack depth (40_execution_cycle.md R101). -/
theorem State.sequence_withUnboundedStack (s : State) (i : Instr) (n : Nat) :
    s.withUnboundedStack.sequence i n = (s.sequence i n).withUnboundedStack := by
  obtain ⟨hin, e⟩ | ⟨hout, e⟩ := s.sequence_cases i n
  · rw [e]
    exact State.sequence_inside s.withUnboundedStack hin i
  · rw [e]
    exact State.sequence_outside s.withUnboundedStack hout i

/-- Settles O54: the decode phase does not read the stack depth, and of the ends of an instruction
only the StackOverflow faults depend on it. -/
theorem finiteStackIsUnboundedUntilItOverflows :
    Obligations.FiniteStackIsUnboundedUntilItOverflows := by
  intro s t hstep
  obtain ⟨hs, ⟨i, n, hfetch, hexec⟩ | ⟨r, hfetch, rfl⟩⟩ := step_cases s hstep
  · rw [step_of_fetch (s := s.withUnboundedStack) hs hfetch]
    obtain ⟨r, hr, rfl⟩ | ⟨hhalts, rfl⟩ | ⟨u, next, hu, rfl⟩ := exec_next_cases hexec
    · obtain hoverflow | hr' := hr.withUnboundedStack
      · exact .inr ⟨_, rfl, hoverflow⟩
      · exact .inl (exec_of_fault hr')
    · exact .inl (exec_of_halts (s := s.withUnboundedStack) hhalts)
    · rw [exec_of_effect hu.withUnboundedStack, State.sequence_withUnboundedStack]
      exact .inl rfl
  · exact .inl (step_of_decode_fault (s := s.withUnboundedStack) hs hfetch)

end Sys2Proof.Machine

/-! PROOFS. What each instruction does (41_machine_control.md to 47_io.md): its effect and its next
pc, inside and outside the extent. -/

namespace Sys2Proof.Machine

section
variable {s u : State} {i : Instr} {n : Nat}

/-- An effect whose next pc is inside the extent completes (40_execution_cycle.md R101). -/
theorem exec_effect_inside (h : EffectOf s i u n) (hn : n < s.launch.extent) :
    exec i s = .next { u with pc := n } := by
  obtain ⟨-, -, hlaunch⟩ := h.keeps
  rw [exec_of_effect h, State.sequence_inside u (hlaunch ▸ hn)]

/-- An effect whose next pc is outside the extent is kept, and the sequencer faults
(40_execution_cycle.md R101). -/
theorem exec_effect_outside (h : EffectOf s i u n) (hn : s.launch.extent ≤ n) :
    exec i s = .next (u.raise { reason := .outOfBounds, detail := some n } (some i)) := by
  obtain ⟨-, -, hlaunch⟩ := h.keeps
  rw [exec_of_effect h, State.sequence_outside u (hlaunch ▸ hn)]

end

/-! ## Machine control -/

/-- Settles O10: Halt is the one meaning with no sequencer phase. -/
theorem haltChangesOnlyTheStatus : Obligations.HaltChangesOnlyTheStatus :=
  ⟨rfl, exec_halt⟩

/-- Settles O11: NoOp's effect is none, and its next pc is pc + 1. -/
theorem noOpOnlyAdvancesThePc : Obligations.NoOpOnlyAdvancesThePc :=
  ⟨rfl, fun _ hin => exec_effect_inside .noOp hin⟩

/-! ## Registers and the stack -/

theorem narrow_toNat_of_le {v : Nat} (h : v ≤ 32767) : (narrow v).toNat = v := by
  rw [narrow_toNat, Nat.mod_eq_of_lt (Nat.lt_succ_of_le h)]

theorem State.stackFull_eq_false_iff {s : State} :
    s.stackFull = false ↔ ∀ d, s.launch.stackDepth = some d → s.stack.length < d := by
  cases hd : s.launch.stackDepth with
  | none => simp [State.stackFull_unbounded hd]
  | some d => simp [State.stackFull_finite hd]

theorem State.stackFull_of_depth_le {s : State} {d : Nat} (hd : s.launch.stackDepth = some d)
    (h : d ≤ s.stack.length) : s.stackFull = true := by
  rw [State.stackFull_finite hd, decide_eq_true h]

/-- Settles O13: with room Push has its effect, on a full stack its fault. -/
theorem pushAppendsOrOverflows : Obligations.PushAppendsOrOverflows := by
  refine fun a s => ⟨rfl, fun hroom hin => ?_, fun d hd hfull => ?_⟩
  · have hpush := exec_effect_inside (.push a (State.stackFull_eq_false_iff.mpr hroom)) hin
    exact ⟨_, hpush, rfl, rfl, fun _ => rfl, fun _ => rfl, ⟨rfl, rfl, rfl⟩, rfl⟩
  · exact exec_of_fault (.pushFull a (State.stackFull_of_depth_le hd hfull))

/-- Settles O14: a tail entry that is a Word enters the register unchanged; Pop's two faults are the
other cases. -/
theorem popTakesTheTail : Obligations.PopTakesTheTail := by
  refine fun a s => ⟨rfl, fun st v hstack hv hin => ?_,
    fun st v hstack hv => exec_of_fault (.popRange a st v hstack hv),
    fun hempty => exec_of_fault (.popEmpty a hempty)⟩
  have hkeeps := State.keepsRegsBut_writeReg { s with stack := st } a (narrow v)
  have hreg := State.reg_writeReg_same { s with stack := st } a (narrow v)
  exact ⟨_, exec_effect_inside (.pop a st v hstack hv) hin,
    (congrArg BitVec.toNat hreg).trans (narrow_toNat_of_le hv), rfl, rfl, hkeeps, fun _ => rfl,
    ⟨rfl, rfl, rfl⟩, rfl⟩

/-! ## Control transfer -/

theorem nonZero_iff {w : Word} : nonZero w = true ↔ w.toNat ≠ 0 := decide_eq_true_iff

/-- A jump to an address inside the extent moves the pc and nothing else; outside it faults with the
address as detail. -/
theorem exec_jump_to {s : State} {i : Instr} {next : Nat} (h : EffectOf s i s next) :
    (next < s.launch.extent → ∃ t, exec i s = .next t ∧ t.pc = next ∧ ControlFrame s t) ∧
    (s.launch.extent ≤ next → ∃ rec, exec i s = .next { s with status := .faulted rec } ∧
      rec.reason = .outOfBounds ∧ rec.detail = some next) :=
  ⟨fun hin => ⟨_, exec_effect_inside h hin, rfl,
      ⟨fun _ => rfl, fun _ => rfl, ⟨rfl, rfl, rfl⟩, rfl⟩, rfl⟩,
    fun hout => ⟨_, exec_effect_outside h hout, rfl, rfl⟩⟩

/-- Settles O17: the next pc of Jump is val(a). -/
theorem jumpGoesToItsTargetOrFaults : Obligations.JumpGoesToItsTargetOrFaults :=
  fun a _ => ⟨rfl, exec_jump_to (.jump a)⟩

/-- Settles O18: the next pc of JumpTrue is chosen by the zero test of val(a). -/
theorem jumpTrueIsTakenOnNonZero : Obligations.JumpTrueIsTakenOnNonZero := by
  intro a b s next hnext
  have heffect : EffectOf s (.jumpTrue a b) s next := by
    have h := EffectOf.jumpTrue (s := s) a b
    simp only [nonZero_iff] at h
    rwa [hnext]
  exact ⟨rfl, exec_jump_to heffect⟩

/-- Settles O19: the next pc of JumpFalse is chosen by the same test, the other way round. -/
theorem jumpFalseIsTakenOnZero : Obligations.JumpFalseIsTakenOnZero := by
  intro a b s next hnext
  have heffect : EffectOf s (.jumpFalse a b) s next := by
    have h := EffectOf.jumpFalse (s := s) a b
    simp only [nonZero_iff, ite_not] at h
    rwa [hnext]
  exact ⟨rfl, exec_jump_to heffect⟩

/-- Settles O28: Call's effect is the push, which the sequencer's fault keeps. -/
theorem callPushesItsFallthrough : Obligations.CallPushesItsFallthrough := by
  refine fun a s => ⟨rfl, fun hroom => ?_, fun d hd hfull => ?_⟩
  · have heffect := EffectOf.call a (State.stackFull_eq_false_iff.mpr hroom)
    refine ⟨fun hin => ?_, fun hout => exec_effect_outside heffect hout⟩
    exact ⟨_, exec_effect_inside heffect hin, rfl, rfl, fun _ => rfl, fun _ => rfl,
      ⟨rfl, rfl, rfl⟩, rfl⟩
  · exact exec_of_fault (.callFull a (State.stackFull_of_depth_le hd hfull))

/-- Settles O29: Return's effect is the pop, which the sequencer's fault keeps. -/
theorem returnPopsOrHalts : Obligations.ReturnPopsOrHalts := by
  refine ⟨rfl, fun s => ⟨fun hempty => exec_of_halts (.inr ⟨rfl, hempty⟩),
    fun st v hstack => ⟨fun hin => ?_, fun hout => ?_⟩⟩⟩
  · exact ⟨_, exec_effect_inside (.ret st v hstack) hin, rfl, rfl, fun _ => rfl, fun _ => rfl,
      ⟨rfl, rfl, rfl⟩, rfl⟩
  · exact ⟨_, _, exec_effect_outside (.ret st v hstack) hout, rfl, rfl, rfl, rfl⟩

/-- Settles O49: a Call that completes left its fallthrough address on the tail, where Return takes
its next pc from. -/
theorem returnResumesAfterTheCall : Obligations.ReturnResumesAfterTheCall := by
  intro a s t u _ hcall ht hin hstack hlaunch
  have hpushed : t.stack = s.stack ++ [s.pc + 2] := by
    obtain ⟨-, e⟩ | ⟨-, e⟩ := exec_call_cases s a
    · cases e.symm.trans hcall
      cases ht
    · cases e.symm.trans hcall
      exact State.sequence_stack _ _ _
  have hextent : s.pc + 2 < u.launch.extent := by rwa [hlaunch, exec_keeps_launch hcall]
  exact exec_effect_inside (.ret s.stack (s.pc + 2) (hstack.trans hpushed)) hextent

/-! ## The ALU -/

/-- Settles O22: a remainder is at most the dividend, so the reduction leaves it. -/
theorem moduloIsTheRemainderOrFaults : Obligations.ModuloIsTheRemainderOrFaults := by
  refine fun a b c s => ⟨rfl, fun hnz hin => ?_, fun hzero => ?_⟩
  · obtain ⟨t, hexec, hreg, hpc, hframe⟩ :=
      exec_write_of_inside (exec_of_effect (.modulo a b c hnz)) hin
    have hsmall : (s.val b).toNat % (s.val c).toNat ≤ 32767 :=
      Nat.le_trans (Nat.mod_le _ _) (s.val b).toNat_le
    exact ⟨t, hexec, by rw [hreg, narrow_toNat_of_le hsmall], hpc, hframe⟩
  · exact ⟨_, exec_of_fault (.moduloZero a b c hzero), rfl, rfl⟩

theorem State.val_of_keepsRegsBut {s t : State} {a : Reg} (h : KeepsRegsBut a s t) {b : Operand}
    (hb : b ≠ .reg a) : t.val b = s.val b := by
  cases b with
  | lit w => rfl
  | reg r => exact h r fun hr => hb (by rw [hr])

/-- Settles O52: the scratch register holds 32767 - val(c), then 32768 - val(c) reduced, while b
keeps its value until the last Add. -/
theorem subtractionIdiomSubtracts : Obligations.SubtractionIdiomSubtracts := by
  intro ra rt b c s hb hin
  obtain ⟨t, hnot, htreg, htpc, htkeeps, -⟩ :=
    exec_write_of_inside (exec_not s rt c) (by omega)
  have htlaunch := exec_keeps_launch hnot
  obtain ⟨u, hinc, hureg, hupc, hukeeps, -⟩ :=
    exec_write_of_inside (exec_add t rt (.reg rt) (.lit 1)) (by rw [htlaunch]; omega)
  have hulaunch := exec_keeps_launch hinc
  obtain ⟨v, hadd, hvreg, -, -⟩ :=
    exec_write_of_inside (exec_add u ra b (.reg rt)) (by rw [hulaunch, htlaunch]; omega)
  have hbval : u.val b = s.val b :=
    (State.val_of_keepsRegsBut hukeeps hb).trans (State.val_of_keepsRegsBut htkeeps hb)
  have hscratch : (u.reg rt).toNat = (32767 - (s.val c).toNat + 1) % 32768 := by
    rw [hureg, aluAdd_toNat, State.val_reg, htreg, aluNot_toNat]
    rfl
  refine ⟨t, u, v, hnot, hinc, hadd, ?_⟩
  have hc := (s.val c).toNat_le
  rw [hvreg, aluAdd_toNat, State.val_reg, hbval, hscratch]
  omega

/-! ## Memory access -/

/-- Settles O26: the address test comes first, then the range test of the cell. -/
theorem readMemoryReadsTheCell : Obligations.ReadMemoryReadsTheCell := by
  refine fun a b s => ⟨rfl, fun w hw hsmall hin => ?_, fun w hw hbig => ?_,
    fun hout => exec_of_fault (.readOutside a b hout)⟩
  · obtain ⟨haddr, rfl⟩ := State.memRead_ok.mp hw
    obtain ⟨t, hexec, hreg, hpc, hframe⟩ :=
      exec_write_of_inside (exec_of_effect (.read a b haddr hsmall)) hin
    exact ⟨t, hexec, (congrArg BitVec.toNat hreg).trans (narrow_toNat_of_le hsmall), hpc, hframe⟩
  · obtain ⟨haddr, rfl⟩ := State.memRead_ok.mp hw
    exact exec_of_fault (.readRange a b haddr hbig)

/-- Settles O27: WriteMemory's effect is one store, whose reads `memRead_of_store` gives. -/
theorem writeMemoryStoresOneCell : Obligations.WriteMemoryStoresOneCell := by
  refine fun a b s hwf => ⟨rfl, fun haddr hin => ?_,
    fun hout => ⟨_, exec_of_fault (.writeOutside a b hout), rfl, rfl⟩⟩
  have hstore := exec_effect_inside (.store a b haddr) hin
  obtain ⟨hsame, hother⟩ := State.memRead_of_store (t := { s with
    mem := s.mem.write (s.address a) (zext16 (s.val b)), pc := s.pc + 3 }) hwf haddr rfl rfl
  exact ⟨_, hstore, hsame, hother, rfl, fun _ => rfl, rfl, ⟨rfl, rfl, rfl⟩, rfl⟩

/-- A WriteMemory that leaves the core Running stored its value at its address
(46_memory_access.md R166). -/
theorem memRead_of_exec_writeMemory {s t : State} {a b : Operand} (hwf : s.mem.wf = true)
    (h : exec (.writeMemory a b) s = .next t) (ht : t.status = .running) :
    t.memRead (s.address a) = .ok (zext16 (s.val b)) := by
  have hlaunch := exec_keeps_launch h
  obtain ⟨-, e⟩ | ⟨haddr, e⟩ := exec_writeMemory_cases s a b
  · cases e.symm.trans h
    cases ht
  · cases e.symm.trans h
    obtain ⟨hsame, -⟩ := State.memRead_of_store hwf haddr (State.sequence_mem _ _ _) hlaunch
    exact hsame

/-- Settles O51: the cell holds the written Word, which a ReadMemory narrows back to itself and the
next fetch takes as its opcode word. -/
theorem writtenCellIsReadAndFetched : Obligations.WrittenCellIsReadAndFetched := by
  intro a b r s t hwf _ hexec ht
  have hcell := memRead_of_exec_writeMemory hwf hexec ht
  refine ⟨fun hin => ?_, fun hpc hzero => ?_, fun hpc hbig => ?_⟩
  · obtain ⟨haddr, hread⟩ := State.memRead_ok.mp hcell
    have hword : (t.mem.read (s.address a)).toNat = (s.val b).toNat := by
      rw [hread, zext16_toNat]
    have heffect : EffectOf t (.readMemory r (.lit (s.val a))) _ _ :=
      .read r (.lit (s.val a)) haddr (hword ▸ (s.val b).toNat_le)
    obtain ⟨u, hu, hreg, -⟩ := exec_write_of_inside (exec_of_effect heffect) hin
    refine ⟨u, hu, hreg.trans ?_⟩
    exact (congrArg narrow hword).trans (narrow_word _)
  · have hzero' : zext16 (s.val b) = 0#16 := by
      apply BitVec.eq_of_toNat_eq
      rw [zext16_toNat, hzero]
      rfl
    have hfetch : t.fetch = .ok (.halt, t.pc + 1) := State.fetch_of_words fun k w hk => by
      cases k with
      | zero =>
        cases hk
        rw [Nat.add_zero, hpc, hcell, hzero']
        rfl
      | succ k => cases hk
    exact ⟨_, step_of_fetch ht hfetch, rfl⟩
  · have hbig' : 21 < (zext16 (s.val b)).toNat := by rwa [zext16_toNat]
    refine ⟨_, _, step_of_unknown_opcode ht (hpc ▸ hcell) hbig', rfl, rfl, ?_⟩
    rw [zext16_toNat]

/-! ## Input and output -/

/-- Settles O30: Out's effect is the append. -/
theorem outAppendsTheValue : Obligations.OutAppendsTheValue := by
  refine fun a s => ⟨rfl, fun hin => ?_⟩
  exact ⟨_, exec_effect_inside (.out a) hin, rfl, rfl, fun _ => rfl, rfl, fun _ => rfl, rfl, rfl,
    rfl⟩

/-- Settles O31: a code that is a Word enters the register unchanged; In's two faults are the other
cases. -/
theorem inTakesOneCode : Obligations.InTakesOneCode := by
  refine fun a s => ⟨rfl, fun c hcode hc hin => ?_,
    fun c hcode hc => exec_of_fault (.inputRange a c hcode hc),
    fun hend => exec_of_fault (.inputEnd a (State.inPort_none.mpr hend))⟩
  have hkeeps := s.consumeInput.keepsRegsBut_writeReg a (narrow c)
  have hreg := s.consumeInput.reg_writeReg_same a (narrow c)
  exact ⟨_, exec_effect_inside (.inp a c hcode hc) hin,
    (congrArg BitVec.toNat hreg).trans (narrow_toNat_of_le hc), rfl, rfl, hkeeps, rfl, fun _ => rfl,
    rfl, rfl, rfl⟩

end Sys2Proof.Machine
